-- ==== Sys2Proof/Word.lean ====
section
/-! DEFINITION. The Word, the host address and the modulus of STIP_PW48 CORE (spec/00_scope.md section 5, rule R10). -/

namespace Sys2Proof

/-- A Word: "an unsigned 32-bit integer; the atomic unit of all cipher operations" (00_scope.md section 5). -/
abbrev Word := BitVec 32

/-- A word address of the host space, which has 2^19 of them (20_memory.md R50). -/
abbrev Address := BitVec 19

/-- `M = 2^32 - 1`, the modulus of the ring (40_modular_arithmetic.md R100). -/
def modulus : Nat := 4294967295

/-- The all-ones Word, equal to `M`: the sentinel (40_modular_arithmetic.md R100). -/
def sentinel : Word := 0xFFFFFFFF#32

end Sys2Proof
end

