-- ==== Sys2Proof/Syntax.lean ====
section
/-! DEFINITION. The thirteen commands (spec/30_encoding.md R84), one constructor per row of spec/opcode_table.json. -/

namespace Sys2Proof

/-- A command. `blk` is a block index and `r` a round index, both unsigned numbers (30_encoding.md R82, R83, R89); how
large an encoding lets them be is checked in WellFormed.lean. -/
inductive Instr where
  /-- `NOP` (43_system.md R180). -/
  | nop
  /-- `SRST` (43_system.md R181). -/
  | srst
  /-- `GMUL` (40_modular_arithmetic.md R108). -/
  | gmul
  /-- `GINV` (40_modular_arithmetic.md R109). -/
  | ginv
  /-- `MINV` (40_modular_arithmetic.md R110). -/
  | minv
  /-- `XFRM blk` (41_round_transform.md R139). -/
  | xfrm (blk : Nat)
  /-- `IXFRM blk` (41_round_transform.md R140). -/
  | ixfrm (blk : Nat)
  /-- `KXOR blk, r` (42_block_driver.md R159). -/
  | kxor (blk r : Nat)
  /-- `ENCB blk` (42_block_driver.md R160). -/
  | encb (blk : Nat)
  /-- `DECB blk` (42_block_driver.md R161). -/
  | decb (blk : Nat)
  /-- `PAD` (42_block_driver.md R162). -/
  | pad
  /-- `ENC` (42_block_driver.md R163). -/
  | enc
  /-- `DEC` (42_block_driver.md R164). -/
  | dec
  deriving DecidableEq, Repr

end Sys2Proof
end

