-- ==== Sys2Proof/WellFormed.lean ====
section
/-! DEFINITION. Which terms of `Instr` a command word can carry (spec/30_encoding.md R82, R83). -/

namespace Sys2Proof

/-- `blk` fits its field: "an unsigned block index, `0` to `65535`" (30_encoding.md R82). -/
def blockFits (blk : Nat) : Bool := decide (blk < 65536)

/-- `r` fits its field: "encodable `0` to `7`" (30_encoding.md R83). That only 0 to 5 are legal is the command's own
check, not the encoding's (R87). -/
def roundFits (r : Nat) : Bool := decide (r < 8)

/-- Every operand fits its field. -/
def Instr.wellFormed : Instr → Bool
  | .nop => true
  | .srst => true
  | .gmul => true
  | .ginv => true
  | .minv => true
  | .xfrm blk => blockFits blk
  | .ixfrm blk => blockFits blk
  | .kxor blk r => blockFits blk && roundFits r
  | .encb blk => blockFits blk
  | .decb blk => blockFits blk
  | .pad => true
  | .enc => true
  | .dec => true

/-- `Instr.wellFormed` as a proposition. -/
abbrev Instr.WellFormed (i : Instr) : Prop := i.wellFormed = true

end Sys2Proof
end

