-- ==== Sys2Proof/Decode.lean ====
section
/-! DEFINITION. The decoder of command words and the encoder (spec/30_encoding.md R80 to R90). A command is one Word, so
nothing here has a byte order (20_memory.md R56; log entry 7). -/

namespace Sys2Proof

/-- Why a Word is no command (30_encoding.md R86). -/
inductive DecodeError where
  /-- "its `op` is not one of the thirteen values". -/
  | unassignedOpcode
  /-- "any must-be-zero bit of its format is 1". -/
  | reservedBitSet
  deriving DecidableEq, Repr

/-- One row of the opcode map (30_encoding.md R84): a Word `w` is this command if and only if `w & mask = pattern`
(the spec's column `match`), and `build` makes the command from the fields `blk` and `r`. -/
structure OpcodeRow where
  pattern : Word
  mask : Word
  build : Nat → Nat → Instr

/-- The thirteen rows of 30_encoding.md R84. -/
def opcodeRows : List OpcodeRow := [
  ⟨0x00000000#32, 0xFFFFFFFF#32, fun _ _ => .nop⟩,
  ⟨0x01000000#32, 0xFFFFFFFF#32, fun _ _ => .srst⟩,
  ⟨0x10000000#32, 0xFFFFFFFF#32, fun _ _ => .gmul⟩,
  ⟨0x11000000#32, 0xFFFFFFFF#32, fun _ _ => .ginv⟩,
  ⟨0x12000000#32, 0xFFFFFFFF#32, fun _ _ => .minv⟩,
  ⟨0x20000000#32, 0xFFFF0000#32, fun blk _ => .xfrm blk⟩,
  ⟨0x21000000#32, 0xFFFF0000#32, fun blk _ => .ixfrm blk⟩,
  ⟨0x30000000#32, 0xFFF80000#32, fun blk r => .kxor blk r⟩,
  ⟨0x31000000#32, 0xFFFF0000#32, fun blk _ => .encb blk⟩,
  ⟨0x32000000#32, 0xFFFF0000#32, fun blk _ => .decb blk⟩,
  ⟨0x40000000#32, 0xFFFFFFFF#32, fun _ _ => .pad⟩,
  ⟨0x41000000#32, 0xFFFFFFFF#32, fun _ _ => .enc⟩,
  ⟨0x42000000#32, 0xFFFFFFFF#32, fun _ _ => .dec⟩]

/-- `op`, bits 31:24 of every format (30_encoding.md R80). -/
def opField (w : Word) : Nat := (w.extractLsb' 24 8).toNat

/-- `blk = zext(cmd[15:0])` (30_encoding.md R89). -/
def blkField (w : Word) : Nat := (w.extractLsb' 0 16).toNat

/-- `r = zext(cmd[18:16])` (30_encoding.md R89). -/
def roundField (w : Word) : Nat := (w.extractLsb' 16 3).toNat

/-- The first row of a list that a Word matches, built with the Word's fields (30_encoding.md R85). -/
def matchRow (w : Word) : List OpcodeRow → Option Instr
  | [] => none
  | row :: rows =>
    if w &&& row.mask = row.pattern then some (row.build (blkField w) (roundField w)) else matchRow w rows

/-- `op` is one of the thirteen values of 30_encoding.md R84. -/
def opAssigned (w : Word) : Bool := opcodeRows.any fun row => opField row.pattern == opField w

/-- Decoding: every Word is exactly one command or is illegal, for one of the two reasons of 30_encoding.md R86. -/
def decode (w : Word) : Except DecodeError Instr :=
  match matchRow w opcodeRows with
  | some i => .ok i
  | none => .error (if opAssigned w then .reservedBitSet else .unassignedOpcode)

/-- The command word of a well-formed command: "`w = match + blk`", "`w = 0x30000000 + r*2^16 + blk`"
(30_encoding.md R90). Of a command that is not well-formed: log entry 15, DESIGN CHOICE. -/
def encode : Instr → Word
  | .nop => 0x00000000#32
  | .srst => 0x01000000#32
  | .gmul => 0x10000000#32
  | .ginv => 0x11000000#32
  | .minv => 0x12000000#32
  | .xfrm blk => 0x20000000#32 + BitVec.ofNat 32 blk
  | .ixfrm blk => 0x21000000#32 + BitVec.ofNat 32 blk
  | .kxor blk r => 0x30000000#32 + BitVec.ofNat 32 (r * 65536) + BitVec.ofNat 32 blk
  | .encb blk => 0x31000000#32 + BitVec.ofNat 32 blk
  | .decb blk => 0x32000000#32 + BitVec.ofNat 32 blk
  | .pad => 0x40000000#32
  | .enc => 0x41000000#32
  | .dec => 0x42000000#32

/-- The column `op` of 30_encoding.md R84. -/
def Instr.opcode : Instr → Nat
  | .nop => 0x00
  | .srst => 0x01
  | .gmul => 0x10
  | .ginv => 0x11
  | .minv => 0x12
  | .xfrm _ => 0x20
  | .ixfrm _ => 0x21
  | .kxor _ _ => 0x30
  | .encb _ => 0x31
  | .decb _ => 0x32
  | .pad => 0x40
  | .enc => 0x41
  | .dec => 0x42

/-- The Word whose bits are `w` in the table's numbering: bit 0 is the Word's least significant bit, and every bit from
`nbits` up is 0. -/
def tableWord (nbits w : Nat) : Word := BitVec.ofNat 32 (w % 2 ^ nbits)

/-- What the decoder reads from the command word `tableWord nbits w`. -/
def decodeTableWord (nbits w : Nat) : Option Instr :=
  match decode (tableWord nbits w) with
  | .ok i => some i
  | .error _ => none

end Sys2Proof
end

