-- ==== Sys2Proof/Config.lean ====
section
/-! DEFINITION. The configuration of one core: the three open parameters `C0`, `KC` and `MSGWORDS` with the constraints
the spec puts on them (spec/00_scope.md R7, R8, R9; log entry 3). -/

namespace Sys2Proof

/-- An admissible configuration. "A configuration that violates the constraint is refused: the model is not
instantiated" (00_scope.md R7): the constraints are proof fields, so an inadmissible configuration cannot be built. -/
structure Config where
  /-- `C0`, the base round constant (00_scope.md R7). -/
  c0 : Word
  /-- `KC`, the fixed mixing constant (00_scope.md R8). -/
  kc : Word
  /-- `MSGWORDS`, the depth of the message buffer in Words (00_scope.md R9). -/
  msgWords : Nat
  /-- 00_scope.md R7: `gcd(C0, 2^32 - 1) = 1`. -/
  c0_coprime : Nat.gcd c0.toNat modulus = 1
  /-- 00_scope.md R8: bit 0 of `KC` is 0. -/
  kc_even : kc[0] = false
  /-- 00_scope.md R9: `MSGWORDS mod 4 = 0`. -/
  msgWords_mod : msgWords % 4 = 0
  /-- 00_scope.md R9: `4 <= MSGWORDS`. -/
  msgWords_min : 4 ≤ msgWords
  /-- 00_scope.md R9: `MSGWORDS <= 262144`. -/
  msgWords_max : msgWords ≤ 262144
  deriving DecidableEq, Repr

/-- Test instance `P_A` with `MSGWORDS = 128`. NOT normative (00_scope.md section 3, 93_implementation_defined.md G1):
only tests and witnesses name it. -/
def Config.testA : Config where
  c0 := 0x025F1CDB#32
  kc := 0x2AAAAAAA#32
  msgWords := 128
  c0_coprime := by decide
  kc_even := by decide
  msgWords_mod := by decide
  msgWords_min := by decide
  msgWords_max := by decide

/-- Test instance `P_B` with `MSGWORDS = 128`. NOT normative (00_scope.md section 3): tests and witnesses name it, and
`Config.built` takes it as evidence that an admissible configuration exists. -/
def Config.testB : Config where
  c0 := 0x00000007#32
  kc := 0x00000002#32
  msgWords := 128
  c0_coprime := by decide
  kc_even := by decide
  msgWords_mod := by decide
  msgWords_min := by decide
  msgWords_max := by decide

/-- A configuration about which nothing is known but that it is admissible (92_eei_decisions.md D5, D7: `OPEN`).
The argument only says that there is one; no proof can see which configuration this is. -/
opaque Config.unspecified [Inhabited Config] : Config

/-- The configuration this core was built with: the "configured values" of 10_state.md R36. The spec gives the
parameters no value, so it is opaque (log entry 3). -/
def Config.built : Config := @Config.unspecified ⟨Config.testB⟩

end Sys2Proof
end

