-- ==== Sys2Proof/Machine/State.lean ====
section
/-! DEFINITION. The state of the machine: everything spec/10_state.md R20 names, the configuration it runs under, and the
host's two lists (log entries 1, 2, 3). Plain data throughout. -/

namespace Sys2Proof.Machine

/-- Four Words in order: the spec's Block, "exactly 4 Words (128 bits)", written `(x0, x1, x2, x3)` (41_round_transform.md
R130). -/
structure Block where
  x0 : Word
  x1 : Word
  x2 : Word
  x3 : Word
  deriving DecidableEq, Repr

/-- The Key: "an ordered sequence of exactly 4 Words" (10_state.md R21); `x0` is `K[0]`. -/
abbrev Key := Block

/-- The six errors (60_exceptions.md R191). -/
inductive ErrorKind where
  /-- `E_ILLEGAL`, code 0 (R192). -/
  | illegal
  /-- `E_RANGE`, code 1 (R193). -/
  | range
  /-- `E_KEY`, code 2 (R194). -/
  | key
  /-- `E_ALIGN`, code 3 (R195). -/
  | align
  /-- `E_NOINV`, code 4 (R196). -/
  | noinv
  /-- `E_ADDR`, code 5 (R197). -/
  | addr
  deriving DecidableEq, Repr

/-- A host transaction (00_scope.md R11): "reset, register write, register read". -/
inductive Transaction where
  /-- `RESET` (70_reset_and_hazards.md R220). -/
  | reset
  /-- `MemRead(a, 4)` (20_memory.md R52). -/
  | read (a : Address)
  /-- `MemWrite(a, 4, v)` (20_memory.md R53). -/
  | write (a : Address) (v : Word)
  deriving DecidableEq, Repr

/-- Reasons for which the machine stops with a fault. There is none: "There is no stuck state, no hang and no refusal at
run time" (60_exceptions.md R207; log entry 5). An error of the spec is a next state with an error bit set. -/
inductive Fault where
  deriving DecidableEq, Repr

/-- Reasons for which a step has no meaning. -/
inductive Refusal where
  /-- An arm of `exec` for an instruction without a meaning. No arm raises it in this model. Safe: nothing could be
  claimed of such a step. -/
  | notModelled (mnemonic : String)
  deriving DecidableEq, Repr

/-- The message buffer: pairs of a Word index and the Word there. A Word that is not listed reads as 0, its reset value
(10_state.md R23, R36). The one canonical form is `Memory.wf` in Machine/Ops.lean. The cell is a Word, since the core
"never addresses anything smaller than a Word" (20_memory.md R56; log entry 6). -/
abbrev Memory := List (Nat × Word)

/-- The state of the machine. -/
structure State where
  /-- The configuration: no step changes it (10_state.md R20, R29 to R32). -/
  cfg : Config
  /-- `K[0..3]` (10_state.md R21). -/
  key : Key
  /-- `KV[3:0]` (10_state.md R22). -/
  kv : BitVec 4
  /-- `MSG[0 .. MSGWORDS-1]` (10_state.md R23). -/
  msg : Memory
  /-- `LEN` (10_state.md R24). -/
  len : Word
  /-- `GAMMA` (10_state.md R25). -/
  gamma : Word
  /-- `OPX` (10_state.md R26). -/
  opx : Word
  /-- `RES` (10_state.md R27). -/
  res : Word
  /-- The six sticky error bits, bit `i` being the error of code `i` (10_state.md R28, 60_exceptions.md R191). -/
  errors : BitVec 6
  /-- The model's own: host transactions not yet executed, oldest first. DESIGN CHOICE, log entry 1. -/
  pending : List Transaction
  /-- The model's own: the Words host reads have returned, oldest first. DESIGN CHOICE, log entry 2. -/
  returned : List Word
  deriving DecidableEq, Repr

/-- The machine right after reset: every piece of state at its value in the table of 10_state.md R36, the constants at
their configured values, and no transaction issued yet. -/
def State.reset : State where
  cfg := Config.built
  key := ⟨0#32, 0#32, 0#32, 0#32⟩
  kv := 0#4
  msg := []
  len := 0#32
  gamma := 0#32
  opx := 0#32
  res := 0#32
  errors := 0#6
  pending := []
  returned := []

end Sys2Proof.Machine
end

