-- ==== Sys2Proof/Machine/Flags.lean ====
section
/-! DEFINITION. The error bits, the key-valid bits and the STATUS register (spec/10_state.md R22, R28;
spec/60_exceptions.md R191). These are the core's only flags: no arithmetic sets one (10_state.md R28). -/

namespace Sys2Proof.Machine

/-- The code of an error "is its bit position in `STATUS`" (60_exceptions.md R191). -/
def ErrorKind.code : ErrorKind → Nat
  | .illegal => 0
  | .range => 1
  | .key => 2
  | .align => 3
  | .noinv => 4
  | .addr => 5

/-- The error bits with exactly the bit of one error set. -/
def ErrorKind.mask (e : ErrorKind) : BitVec 6 := 1#6 <<< e.code

/-- All four key-valid bits are set: `KV = 0b1111` (10_state.md R22). -/
def State.keyValid (s : State) : Bool := s.kv == 0b1111#4

/-- The STATUS register (10_state.md R28): error bits in 5:0, zero in 7:6, `KV` in 11:8, zero in 31:12. -/
def State.status (s : State) : Word := 0#20 ++ s.kv ++ 0#2 ++ s.errors

end Sys2Proof.Machine
end

