-- ==== Sys2Proof/Machine/Ops.lean ====
section
/-! DEFINITION. The named operations over the message buffer and the registers, and raising an error, the core's one
form of exception (spec/10_state.md, spec/20_memory.md, spec/60_exceptions.md R190). -/

namespace Sys2Proof.Machine

/-! ### The message buffer -/

/-- `MSG[i]`: the Word listed at index `i`, or the reset value 0 (10_state.md R36). -/
def Memory.read : Memory → Nat → Word
  | [], _ => 0#32
  | (a, w) :: rest, i => if i = a then w else Memory.read rest i

/-- A cell in front of a list of cells; the value an unlisted index reads as is not listed. -/
def Memory.cell (i : Nat) (v : Word) (rest : Memory) : Memory := if v = 0#32 then rest else (i, v) :: rest

/-- `MSG[i] <- v`, keeping the canonical form. -/
def Memory.write : Memory → Nat → Word → Memory
  | [], i, v => Memory.cell i v []
  | (a, w) :: rest, i, v =>
    if i < a then Memory.cell i v ((a, w) :: rest)
    else if i = a then Memory.cell i v rest
    else (a, w) :: Memory.write rest i v

/-- The canonical form: indices strictly rising, and no cell that holds what an unlisted index reads as. -/
abbrev Memory.wf (m : Memory) : Prop := m.Pairwise (fun p q => p.1 < q.1) ∧ ∀ p ∈ m, p.2 ≠ 0#32

/-- Every listed index lies below `n`. -/
abbrev Memory.below (m : Memory) (n : Nat) : Prop := ∀ p ∈ m, p.1 < n

/-- `for i = start to start + count - 1: MSG[i] <- 0` (42_block_driver.md R162). -/
def Memory.zeroFill (m : Memory) (start : Nat) : Nat → Memory
  | 0 => m
  | count + 1 => (Memory.zeroFill m start count).write (start + count) 0#32

/-! ### Registers -/

/-- `MSG[i]`. -/
def State.readMsg (s : State) (i : Nat) : Word := s.msg.read i

/-- `MSG[i] <- v`. -/
def State.writeMsg (s : State) (i : Nat) (v : Word) : State := { s with msg := s.msg.write i v }

/-- The whole buffer replaced. -/
def State.setMsg (s : State) (m : Memory) : State := { s with msg := m }

/-- `LEN <- n`, for a length that fits the 32-bit register (10_state.md R24). -/
def State.setLen (s : State) (n : Nat) : State := { s with len := BitVec.ofNat 32 n }

/-- `GAMMA <- v` (20_memory.md R53). -/
def State.setGamma (s : State) (v : Word) : State := { s with gamma := v }

/-- `OPX <- v` (20_memory.md R53). -/
def State.setOpx (s : State) (v : Word) : State := { s with opx := v }

/-- `RES <- v` (10_state.md R27). -/
def State.setRes (s : State) (v : Word) : State := { s with res := v }

/-! ### Errors and reset -/

/-- `raise E_X`: "set bit `E_X` of `STATUS` to 1 and end the current transaction; no other state changes"
(60_exceptions.md R190). There is no return: "there is no trap" (R201). -/
def State.raise (s : State) (e : ErrorKind) : State := { s with errors := s.errors ||| e.mask }

/-- The reset state of the core (10_state.md R36) under the configuration it has. What the host has still to ask and
what it has been told are the host's and stay (log entry 4). -/
def State.resetCore (s : State) : State :=
  { State.reset with cfg := s.cfg, pending := s.pending, returned := s.returned }

/-- A host read's answer: the Word goes to the host (20_memory.md R52; log entry 2). -/
def State.respond (s : State) (v : Word) : State := { s with returned := s.returned ++ [v] }

end Sys2Proof.Machine
end

