-- ==== Sys2Proof/Machine/Operands.lean ====
section
/-! DEFINITION. The operands of commands: the four Words of a Block or Key by index, the block view of the message
buffer, and the checks block and key commands share (spec/10_state.md R21, R35; spec/42_block_driver.md section 5). -/

namespace Sys2Proof.Machine

/-! ### Four Words by index -/

/-- Word `j` of a Block or Key. -/
def Block.get (b : Block) : Fin 4 → Word
  | 0 => b.x0
  | 1 => b.x1
  | 2 => b.x2
  | 3 => b.x3

/-- A Block or Key with Word `j` replaced. -/
def Block.set (b : Block) (j : Fin 4) (v : Word) : Block :=
  match j with
  | 0 => { b with x0 := v }
  | 1 => { b with x1 := v }
  | 2 => { b with x2 := v }
  | 3 => { b with x3 := v }

/-- The four Words as a sequence, index 0 first. -/
def Block.toList (b : Block) : List Word := [b.x0, b.x1, b.x2, b.x3]

/-! ### The block view (10_state.md R35) -/

/-- `BLK(b)` in a buffer: the Words `4*b + j`, `j` = 0 to 3 (20_memory.md R65). -/
def Memory.readBlock (m : Memory) (b : Nat) : Block :=
  ⟨m.read (4 * b), m.read (4 * b + 1), m.read (4 * b + 2), m.read (4 * b + 3)⟩

/-- `BLK(b) <- y`: all four Words are written (00_scope.md section 6). -/
def Memory.writeBlock (m : Memory) (b : Nat) (y : Block) : Memory :=
  (((m.write (4 * b) y.x0).write (4 * b + 1) y.x1).write (4 * b + 2) y.x2).write (4 * b + 3) y.x3

/-- `for b = 0 to n - 1: BLK(b) <- f(BLK(b))`, ascending (10_state.md R33). -/
def Memory.mapBlocks (f : Block → Block) (m : Memory) : Nat → Memory
  | 0 => m
  | n + 1 =>
    let done := Memory.mapBlocks f m n
    done.writeBlock n (f (done.readBlock n))

/-- `BLK(b)`. -/
def State.readBlock (s : State) (b : Nat) : Block := s.msg.readBlock b

/-- `BLK(b) <- y`. -/
def State.writeBlock (s : State) (b : Nat) (y : Block) : State := s.setMsg (s.msg.writeBlock b y)

/-- The Message `MSG[0] .. MSG[LEN-1]` (10_state.md R24). -/
def State.message (s : State) : List Word := (List.range s.len.toNat).map s.readMsg

/-! ### Checks -/

/-- The block lies outside the buffer: `4*blk + 3 >= MSGWORDS`, on unbounded integers (30_encoding.md R89,
60_exceptions.md R193). -/
def State.blockOutside (s : State) (blk : Nat) : Bool := decide (4 * blk + 3 ≥ s.cfg.msgWords)

/-! ### The key file -/

/-- A host write of `K[i]`: `K[i] <- v; KV[i] <- 1` (20_memory.md R53). -/
def State.writeKey (s : State) (i : Fin 4) (v : Word) : State :=
  { s with key := s.key.set i v, kv := s.kv ||| (1#4 <<< i.val) }

end Sys2Proof.Machine
end

