-- ==== Sys2Proof/Machine/ModArith.lean ====
section
/-! DEFINITION. The Modular Arithmetic Engine: its functions, the constants made with them, and the commands GMUL, GINV
and MINV (spec/40_modular_arithmetic.md; spec/10_state.md R29, R30). -/

namespace Sys2Proof.Machine

/-! ### GammaMul -/

/-- `GammaMul(gamma, x)` (40_modular_arithmetic.md R101): the exact product reduced modulo `M`; the sentinel as second
argument passes through. -/
def gammaMul (gamma x : Word) : Word :=
  if x = sentinel then sentinel else BitVec.ofNat 32 (gamma.toNat * x.toNat % modulus)

/-- The reduction without division of 40_modular_arithmetic.md R103: `GammaMul` for an implementation that folds the
64-bit product. No command uses it. -/
def gammaMulFold (gamma x : Word) : Word :=
  if x = sentinel then sentinel
  else
    let p := gamma.toNat * x.toNat
    let s := p / 2 ^ 32 + p % 2 ^ 32
    let t := s % 2 ^ 32 + s / 2 ^ 32
    if t = modulus then 0#32 else BitVec.ofNat 32 t

/-! ### ModInverse -/

/-- The loop of 40_modular_arithmetic.md R105, `while a > 1`, with a bound on its passes. The second number falls at
every pass, so a bound of the original `b` is never reached inside the precondition (R229). -/
def euclidLoop : Nat → Nat → Nat → Int → Int → Int
  | 0, _, _, _, x1 => x1
  | fuel + 1, a, b, x0, x1 =>
    if a ≤ 1 then x1 else euclidLoop fuel b (a % b) (x1 - (a / b : Nat) * x0) x0

/-- `ModInverse(a, b)` (40_modular_arithmetic.md R104), computed as R105 says. Outside the precondition the function
"has no value" and "a model must not give one" (93_implementation_defined.md U1): `none`. -/
def modInverse (a b : Nat) : Option Nat :=
  if b = 0 then none
  else if Nat.gcd a b ≠ 1 then none
  else if b = 1 then some 1
  else
    let x := euclidLoop b a b 0 1
    some (if x < 0 then x + b else x).toNat

/-! ### InverseGammaMul -/

/-- `InverseGammaMul(gamma, result)` (40_modular_arithmetic.md R106): the sentinel test comes first; otherwise `none`
where `gamma` has no inverse (93_implementation_defined.md U7). -/
def inverseGammaMul (gamma result : Word) : Option Word :=
  if result = sentinel then some sentinel
  else (modInverse gamma.toNat modulus).map fun v => BitVec.ofNat 32 (result.toNat * v % modulus)

/-! ### The constant file -/

/-- `C[i]` (10_state.md R29): `C0`, `C0·2`, `C0·8`, `C0·128` in the modular ring. -/
def roundConstant (cfg : Config) : Fin 4 → Word
  | 0 => cfg.c0
  | 1 => gammaMul cfg.c0 2#32
  | 2 => gammaMul cfg.c0 8#32
  | 3 => gammaMul cfg.c0 128#32

/-- `CI[i] = ModInverse(C[i], M)` (10_state.md R30). All four exist, so the value after `getD` is never taken
(log entry 8). -/
def inverseConstant (cfg : Config) (i : Fin 4) : Word :=
  BitVec.ofNat 32 ((modInverse (roundConstant cfg i).toNat modulus).getD 0)

/-! ### Commands -/

/-- `GMUL` (40_modular_arithmetic.md R108): `RES <- GammaMul(GAMMA, OPX)`. -/
def execGmul (s : State) : Host.Outcome State Fault Refusal := .next (s.setRes (gammaMul s.gamma s.opx))

/-- `GINV` (40_modular_arithmetic.md R109): `RES <- InverseGammaMul(GAMMA, OPX)`; `E_NOINV` where it has no value. -/
def execGinv (s : State) : Host.Outcome State Fault Refusal :=
  .next (match inverseGammaMul s.gamma s.opx with
    | some v => s.setRes v
    | none => s.raise .noinv)

/-- `MINV` (40_modular_arithmetic.md R110): `RES <- ModInverse(GAMMA, OPX)`; `E_NOINV` where it has no value. -/
def execMinv (s : State) : Host.Outcome State Fault Refusal :=
  .next (match modInverse s.gamma.toNat s.opx.toNat with
    | some v => s.setRes (BitVec.ofNat 32 v)
    | none => s.raise .noinv)

end Sys2Proof.Machine
end

