-- ==== Sys2Proof/Machine/RoundTransform.lean ====
section
/-! DEFINITION. The Round Transform: its three stages, Transform and InverseTransform, and the commands XFRM and IXFRM
(spec/41_round_transform.md). -/

namespace Sys2Proof.Machine

/-- Stage 1 (41_round_transform.md R131): each Word multiplied by its round constant. -/
def s1 (cfg : Config) (b : Block) : Block :=
  ⟨gammaMul (roundConstant cfg 0) b.x0, gammaMul (roundConstant cfg 1) b.x1,
    gammaMul (roundConstant cfg 2) b.x2, gammaMul (roundConstant cfg 3) b.x3⟩

/-- The inverse of stage 1 (41_round_transform.md R131): `InverseGammaMul(C[i], y)`, "equal to `GammaMul(CI[i], y)`". -/
def s1inv (cfg : Config) (b : Block) : Block :=
  ⟨gammaMul (inverseConstant cfg 0) b.x0, gammaMul (inverseConstant cfg 1) b.x1,
    gammaMul (inverseConstant cfg 2) b.x2, gammaMul (inverseConstant cfg 3) b.x3⟩

/-- Stage 2 (41_round_transform.md R132): at most one of `x0`, `x3` is XORed with the mixing constant; the test of `x0`
comes first. -/
def s2 (kc : Word) (b : Block) : Block :=
  if b.x0[0] then { b with x0 := b.x0 ^^^ kc }
  else if b.x3[0] then b
  else { b with x3 := b.x3 ^^^ kc }

/-- Stage 3 (41_round_transform.md R133), all four Words from the values before the stage. -/
def s3 (b : Block) : Block :=
  ⟨b.x3 ^^^ b.x0 ^^^ b.x1, b.x0 ^^^ b.x1 ^^^ b.x2, b.x1 ^^^ b.x2 ^^^ b.x3, b.x2 ^^^ b.x3 ^^^ b.x0⟩

/-- `Transform = S3 ∘ S2 ∘ S1` (41_round_transform.md R134). -/
def transform (cfg : Config) (b : Block) : Block := s3 (s2 cfg.kc (s1 cfg b))

/-- `InverseTransform = S1inv ∘ S2 ∘ S3` (41_round_transform.md R135). -/
def inverseTransform (cfg : Config) (b : Block) : Block := s1inv cfg (s2 cfg.kc (s3 b))

/-- `XFRM blk` (41_round_transform.md R139). -/
def execXfrm (blk : Nat) (s : State) : Host.Outcome State Fault Refusal :=
  .next (if s.blockOutside blk then s.raise .range
    else s.writeBlock blk (transform s.cfg (s.readBlock blk)))

/-- `IXFRM blk` (41_round_transform.md R140). -/
def execIxfrm (blk : Nat) (s : State) : Host.Outcome State Fault Refusal :=
  .next (if s.blockOutside blk then s.raise .range
    else s.writeBlock blk (inverseTransform s.cfg (s.readBlock blk)))

end Sys2Proof.Machine
end

