-- ==== Sys2Proof/Machine/BlockDriver.lean ====
section
/-! DEFINITION. The Block Cipher Driver: Pad, KeyMix, the six rounds, whole messages, and the commands KXOR, ENCB, DECB,
PAD, ENC and DEC (spec/42_block_driver.md). -/

namespace Sys2Proof.Machine

/-! ### Padding (42_block_driver.md R150) -/

/-- `p = (4 - n mod 4) mod 4`, the number of zero Words that `Pad` appends to `n` Words. -/
def padAmount (n : Nat) : Nat := (4 - n % 4) % 4

/-- `Pad(m)`. -/
def pad (m : List Word) : List Word := m ++ List.replicate (padAmount m.length) 0#32

/-! ### One block -/

/-- `KeyMix(block, key, r)` (42_block_driver.md R151): for `k` = 0 to 3, with `j = (k + r) mod 4`, data Word `j` is XORed
with key Word `j` (the reading 90_conflicts.md C1 chooses; log entry 9). -/
def keyMix (block : Block) (key : Key) (r : Nat) : Block :=
  [0, 1, 2, 3].foldl (fun b k =>
    let j := Fin.ofNat 4 (k + r)
    b.set j (b.get j ^^^ key.get j)) block

/-- The round indices "in increasing order 0..5" (42_block_driver.md R153, 90_conflicts.md C2). -/
def roundIndices : List Nat := [0, 1, 2, 3, 4, 5]

/-- `EncryptBlock(block, key)` (42_block_driver.md R153): in each round the subkey XOR, then `Transform`. -/
def encryptBlock (cfg : Config) (key : Key) (block : Block) : Block :=
  roundIndices.foldl (fun b r => transform cfg (keyMix b key r)) block

/-- `DecryptBlock(block, key)` (42_block_driver.md R154): in each round `InverseTransform`, then the subkey XOR, rounds
ascending. -/
def decryptBlock (cfg : Config) (key : Key) (block : Block) : Block :=
  roundIndices.foldl (fun b r => keyMix (inverseTransform cfg b) key r) block

/-! ### Whole messages -/

/-- A function applied to each group of four Words, in ascending order; up to three Words left over stay as they are
(there are none in a padded Message). -/
def mapWords (f : Block → Block) : List Word → List Word
  | x0 :: x1 :: x2 :: x3 :: rest => (f ⟨x0, x1, x2, x3⟩).toList ++ mapWords f rest
  | short => short

/-- `Encrypt(data, key)` (42_block_driver.md R155). -/
def encrypt (cfg : Config) (key : Key) (data : List Word) : List Word := mapWords (encryptBlock cfg key) (pad data)

/-- `Decrypt(data, key)` (42_block_driver.md R156), total: a misaligned input is padded. -/
def decrypt (cfg : Config) (key : Key) (data : List Word) : List Word := mapWords (decryptBlock cfg key) (pad data)

/-! ### Commands -/

/-- The effect of `PAD` (42_block_driver.md R162), which `ENC` shares. -/
def State.padMessage (s : State) : State :=
  let n := s.len.toNat
  let p := padAmount n
  (s.setMsg (s.msg.zeroFill n p)).setLen (n + p)

/-- Every block of the Message replaced: `for b = 0 to LEN/4 - 1: BLK(b) <- f(BLK(b))`. -/
def State.mapMessage (s : State) (f : Block → Block) : State := s.setMsg (s.msg.mapBlocks f (s.len.toNat / 4))

/-- `KXOR blk, r` (42_block_driver.md R159). -/
def execKxor (blk r : Nat) (s : State) : Host.Outcome State Fault Refusal :=
  .next (if r > 5 then s.raise .range
    else if s.blockOutside blk then s.raise .range
    else if !s.keyValid then s.raise .key
    else s.writeBlock blk (keyMix (s.readBlock blk) s.key r))

/-- `ENCB blk` (42_block_driver.md R160). -/
def execEncb (blk : Nat) (s : State) : Host.Outcome State Fault Refusal :=
  .next (if s.blockOutside blk then s.raise .range
    else if !s.keyValid then s.raise .key
    else s.writeBlock blk (encryptBlock s.cfg s.key (s.readBlock blk)))

/-- `DECB blk` (42_block_driver.md R161). -/
def execDecb (blk : Nat) (s : State) : Host.Outcome State Fault Refusal :=
  .next (if s.blockOutside blk then s.raise .range
    else if !s.keyValid then s.raise .key
    else s.writeBlock blk (decryptBlock s.cfg s.key (s.readBlock blk)))

/-- `PAD` (42_block_driver.md R162). -/
def execPad (s : State) : Host.Outcome State Fault Refusal := .next s.padMessage

/-- `ENC` (42_block_driver.md R163): the key is checked "before anything is padded or changed". -/
def execEnc (s : State) : Host.Outcome State Fault Refusal :=
  .next (if !s.keyValid then s.raise .key
    else s.padMessage.mapMessage (encryptBlock s.cfg s.key))

/-- `DEC` (42_block_driver.md R164): the key, then the alignment, then the blocks; it does not pad. -/
def execDec (s : State) : Host.Outcome State Fault Refusal :=
  .next (if !s.keyValid then s.raise .key
    else if s.len.toNat % 4 ≠ 0 then s.raise .align
    else s.mapMessage (decryptBlock s.cfg s.key))

end Sys2Proof.Machine
end

