-- ==== Sys2Proof/Machine/System.lean ====
section
/-! DEFINITION. The system commands NOP and SRST (spec/43_system.md). -/

namespace Sys2Proof.Machine

/-- `NOP` (43_system.md R180). -/
def execNop (s : State) : Host.Outcome State Fault Refusal := .next s

/-- `SRST` (43_system.md R181): "the state after `SRST` is identical to the state after hardware reset". -/
def execSrst (s : State) : Host.Outcome State Fault Refusal := .next s.resetCore

end Sys2Proof.Machine
end

