-- ==== Sys2Proof/Machine/Dispatch.lean ====
section
/-! DEFINITION. One arm per command, each one direct call of its meaning. -/

namespace Sys2Proof.Machine

def exec (i : Instr) (s : State) : Host.Outcome State Fault Refusal :=
  match i with
  | .nop => Sys2Proof.Machine.execNop s
  | .srst => Sys2Proof.Machine.execSrst s
  | .gmul => Sys2Proof.Machine.execGmul s
  | .ginv => Sys2Proof.Machine.execGinv s
  | .minv => Sys2Proof.Machine.execMinv s
  | .xfrm blk => Sys2Proof.Machine.execXfrm blk s
  | .ixfrm blk => Sys2Proof.Machine.execIxfrm blk s
  | .kxor blk r => Sys2Proof.Machine.execKxor blk r s
  | .encb blk => Sys2Proof.Machine.execEncb blk s
  | .decb blk => Sys2Proof.Machine.execDecb blk s
  | .pad => Sys2Proof.Machine.execPad s
  | .enc => Sys2Proof.Machine.execEnc s
  | .dec => Sys2Proof.Machine.execDec s

end Sys2Proof.Machine
end

