-- ==== Sys2Proof/Machine/HostPort.lean ====
section
/-! DEFINITION. The host port: the address map, host read, host write, and the execution of a command word (spec/20_memory.md
R51 to R53, R63, R64; spec/30_encoding.md R85). -/

namespace Sys2Proof.Machine

/-- What a mapped address names (20_memory.md R51). -/
inductive Location where
  | cmd
  | status
  | len
  | gamma
  | opx
  | res
  | cap
  | key (i : Fin 4)
  | c (i : Fin 4)
  | ci (i : Fin 4)
  | kc
  | msg (i : Nat)
  deriving DecidableEq, Repr

/-- The word address of `CMD`. -/
def commandAddress : Address := 0x00000#19

/-- The address map of 20_memory.md R51; `none` is an unmapped address. -/
def locate (cfg : Config) (a : Address) : Option Location :=
  let n := a.toNat
  if n = 0x00000 then some .cmd
  else if n = 0x00001 then some .status
  else if n = 0x00002 then some .len
  else if n = 0x00003 then some .gamma
  else if n = 0x00004 then some .opx
  else if n = 0x00005 then some .res
  else if n = 0x00006 then some .cap
  else if 0x00008 ≤ n ∧ n ≤ 0x0000B then some (.key (Fin.ofNat 4 (n - 0x00008)))
  else if 0x00010 ≤ n ∧ n ≤ 0x00013 then some (.c (Fin.ofNat 4 (n - 0x00010)))
  else if 0x00014 ≤ n ∧ n ≤ 0x00017 then some (.ci (Fin.ofNat 4 (n - 0x00014)))
  else if n = 0x00018 then some .kc
  else if 0x40000 ≤ n ∧ n < 0x40000 + cfg.msgWords then some (.msg (n - 0x40000))
  else none

/-- "the register's or MSG word's current value"; `CMD` reads as zero (20_memory.md R52). -/
def State.readLocation (s : State) : Location → Word
  | .cmd => 0#32
  | .status => s.status
  | .len => s.len
  | .gamma => s.gamma
  | .opx => s.opx
  | .res => s.res
  | .cap => BitVec.ofNat 32 s.cfg.msgWords
  | .key i => s.key.get i
  | .c i => roundConstant s.cfg i
  | .ci i => inverseConstant s.cfg i
  | .kc => s.cfg.kc
  | .msg i => s.readMsg i

/-- Host read, `MemRead(a, 4)` (20_memory.md R52): an unmapped address raises `E_ADDR` and returns 0. -/
def State.hostRead (s : State) (a : Address) : State :=
  match locate s.cfg a with
  | some l => s.respond (s.readLocation l)
  | none => (s.raise .addr).respond 0#32

/-- A host write of `LEN` (20_memory.md R64). -/
def State.writeLen (s : State) (v : Word) : State :=
  if v.toNat ≤ s.cfg.msgWords then s.setLen v.toNat else s.raise .range

/-- Execution of a command word (30_encoding.md R85): a Word that is no command raises `E_ILLEGAL`. -/
def execWord (w : Word) (s : State) : Host.Outcome State Fault Refusal :=
  match decode w with
  | .ok i => exec i s
  | .error _ => .next (s.raise .illegal)

/-- Host write, `MemWrite(a, 4, v)` (20_memory.md R53): a read-only or unmapped address raises `E_ADDR`. -/
def hostWrite (a : Address) (v : Word) (s : State) : Host.Outcome State Fault Refusal :=
  match locate s.cfg a with
  | some .cmd => execWord v s
  | some .len => .next (s.writeLen v)
  | some .gamma => .next (s.setGamma v)
  | some .opx => .next (s.setOpx v)
  | some (.key i) => .next (s.writeKey i v)
  | some (.msg i) => .next (s.writeMsg i v)
  | some .status => .next (s.raise .addr)
  | some .res => .next (s.raise .addr)
  | some .cap => .next (s.raise .addr)
  | some (.c _) => .next (s.raise .addr)
  | some (.ci _) => .next (s.raise .addr)
  | some .kc => .next (s.raise .addr)
  | none => .next (s.raise .addr)

/-- One host transaction, to completion (20_memory.md R59). -/
def transact (t : Transaction) (s : State) : Host.Outcome State Fault Refusal :=
  match t with
  | .reset => .next s.resetCore
  | .read a => .next (s.hostRead a)
  | .write a v => hostWrite a v s

end Sys2Proof.Machine
end

