-- ==== Sys2Proof/Machine/Step.lean ====
section
/-! DEFINITION. One step of the machine: the oldest transaction the host has issued takes effect (spec/20_memory.md R60). -/

namespace Sys2Proof.Machine

/-- One step. Transactions take effect "one at a time, in the order the host issues them" (20_memory.md R60); with none
issued "the core holds its state and does nothing" (60_exceptions.md R205). -/
def step (s : State) : Host.Outcome State Fault Refusal :=
  match s.pending with
  | [] => .next s
  | t :: rest => transact t { s with pending := rest }

/-- The state in which the next transaction is the write of the command word `tableWord nbits w` to `CMD`: commands are
not stored in the core, each "is the data of one host write to `CMD`" (10_state.md R33; log entry 1). -/
def State.withFetchWord (s : State) (nbits w : Nat) : State :=
  { s with pending := .write commandAddress (tableWord nbits w) :: s.pending }

end Sys2Proof.Machine
end

