-- ==== Sys2Proof/Machine/Assembler.lean ====
section
/-! DEFINITION. The textual forms of host programs as the transactions they stand for: register names, commands and
pseudo-instructions (spec/30_encoding.md R90). -/

namespace Sys2Proof.Machine

/-! ### Register names -/

def statusAddress : Address := 0x00001#19
def lenAddress : Address := 0x00002#19
def gammaAddress : Address := 0x00003#19
def opxAddress : Address := 0x00004#19
def resAddress : Address := 0x00005#19
def capAddress : Address := 0x00006#19
def keyAddress (i : Fin 4) : Address := 0x00008#19 + BitVec.ofNat 19 i.val
def cAddress (i : Fin 4) : Address := 0x00010#19 + BitVec.ofNat 19 i.val
def ciAddress (i : Fin 4) : Address := 0x00014#19 + BitVec.ofNat 19 i.val
def kcAddress : Address := 0x00018#19
/-- `MSG+i`: `0x40000 + i`. DESIGN CHOICE (log entry 20): for `262144 <= i` no address of the host space has that number
and the spec gives such a line no meaning; here it wraps modulo 2^19. -/
def msgAddress (i : Nat) : Address := 0x40000#19 + BitVec.ofNat 19 i

/-! ### Commands and pseudo-instructions -/

/-- A command's line: `WR 0x00000, w`. -/
def command (i : Instr) : Transaction := .write commandAddress (encode i)

/-- `SETKEY k0, k1, k2, k3`. -/
def setKey (k : Key) : List Transaction :=
  [.write (keyAddress 0) k.x0, .write (keyAddress 1) k.x1, .write (keyAddress 2) k.x2, .write (keyAddress 3) k.x3]

/-- `SETLEN n`. -/
def setLength (n : Word) : List Transaction := [.write lenAddress n]

/-- `LDMSG i, w0, w1, ...`, in ascending order. (Past index 262143 the addresses are log entry 20's choice.) -/
def loadMessage : Nat → List Word → List Transaction
  | _, [] => []
  | i, w :: rest => .write (msgAddress i) w :: loadMessage (i + 1) rest

/-- `MULQ g, x`. -/
def mulq (g x : Word) : List Transaction :=
  [.write gammaAddress g, .write opxAddress x, command .gmul, .read resAddress]

/-- `INVQ a`. -/
def invq (a : Word) : List Transaction :=
  [.write gammaAddress a, .write opxAddress sentinel, command .minv, .read resAddress]

end Sys2Proof.Machine
end

