-- ==== Sys2Proof/Safety.lean ====
section
/-! DEFINITION. What holds of every state a run can reach, what an error-free state is, runs of commands and of
transactions, and which addresses a host reads, in the terms statements use (spec/10_state.md R38; spec/60_exceptions.md R199). -/

namespace Sys2Proof.Machine

/-- The invariant of 10_state.md R38 over this model's data: `0 <= LEN <= MSGWORDS`, and the message buffer is in its one
canonical form with no Word at or beyond `MSGWORDS`. (The zero bits of `STATUS` hold by `State.status`.) -/
abbrev State.Inv (s : State) : Prop :=
  s.len.toNat ≤ s.cfg.msgWords ∧ s.msg.wf ∧ s.msg.below s.cfg.msgWords

/-- No error is recorded: `STATUS[5:0] = 0`, the premise "under which its result means anything" (60_exceptions.md R199). -/
abbrev State.errorFree (s : State) : Prop := s.errors = 0#6

/-- The step of a machine that answers next, as a relation. -/
abbrev stepsTo (s t : State) : Prop := step s = .next t

/-- Several commands one after the other, as when the host writes them to `CMD` in this order. -/
def execAll : List Instr → State → Host.Outcome State Fault Refusal
  | [], s => .next s
  | i :: rest, s =>
    match exec i s with
    | .next t => execAll rest t
    | .fault r => .fault r
    | .refused r => .refused r

/-- `n` steps of the machine. -/
def runSteps (n : Nat) (s : State) : Host.Outcome State Fault Refusal := Sys2Proof.core.run n s

/-- The addresses a list of transactions reads, in order: the `k`-th answer the host gets is that of the `k`-th of them. -/
def readAddresses : List Transaction → List Address
  | [] => []
  | .read a :: rest => a :: readAddresses rest
  | .reset :: rest => readAddresses rest
  | .write _ _ :: rest => readAddresses rest

/-- `t` is reached from `s` by some number of steps. -/
def reaches (s t : State) : Prop := ∃ n, runSteps n s = .next t

end Sys2Proof.Machine
end

