-- ==== Sys2Proof/Certificates/Slice0/Obligations.lean ====
section
/-! DEFINITION. The statements for the provers. Each holds for every configuration, since a state carries its own
admissible one. `pending` and `returned` are the model's own fields (log entries 1, 2; what a reset does to them: entry 4):
a clause about them is the model's choice, no rule of the spec. Error bits are written as 6-bit numbers, bit `i` being the error of code `i` (spec/60_exceptions.md R191). -/

open Sys2Proof Sys2Proof.Machine

/-! ### Encoding -/

/-- Command words written out from 30_encoding.md R84 and R90 and the decoder table of 95_test_vectors.md section 2.6. -/
def Obligations.SpecCommandWordsDecode : Prop :=
  decode 0x00000000#32 = .ok .nop ∧ decode 0x01000000#32 = .ok .srst ∧ decode 0x10000000#32 = .ok .gmul ∧
  decode 0x11000000#32 = .ok .ginv ∧ decode 0x12000000#32 = .ok .minv ∧ decode 0x20000003#32 = .ok (.xfrm 3) ∧
  decode 0x2100FFFF#32 = .ok (.ixfrm 65535) ∧ decode 0x30050002#32 = .ok (.kxor 2 5) ∧
  decode 0x30060000#32 = .ok (.kxor 0 6) ∧ decode 0x31000001#32 = .ok (.encb 1) ∧
  decode 0x3200FFFF#32 = .ok (.decb 65535) ∧ decode 0x40000000#32 = .ok .pad ∧ decode 0x41000000#32 = .ok .enc ∧
  decode 0x42000000#32 = .ok .dec

/-- Decoding the word of a well-formed command gives the command back (30_encoding.md R84, R89, R90). -/
def Obligations.DecodeOfEncodeIsIdentity : Prop :=
  ∀ i : Instr, i.WellFormed → decode (encode i) = .ok i

/-- A Word that decodes is the word of the well-formed command it decodes to: no two Words mean the same command. -/
def Obligations.EncodeOfDecodeIsIdentity : Prop :=
  ∀ (w : Word) (i : Instr), decode w = .ok i → i.WellFormed ∧ encode i = w

/-- 30_encoding.md R85: "no word matches two rows". -/
def Obligations.OpcodeRowsMutuallyExclusive : Prop :=
  opcodeRows.length = 13 ∧
  ∀ (w : Word) (j k : Nat) (hj : j < opcodeRows.length) (hk : k < opcodeRows.length),
    w &&& opcodeRows[j].mask = opcodeRows[j].pattern → w &&& opcodeRows[k].mask = opcodeRows[k].pattern → j = k

/-- 30_encoding.md R86: which Words are illegal, what an illegal one does, how many opcodes are, and its examples. -/
def Obligations.IllegalWordsAreExactlyThose : Prop :=
  (∀ w : Word, (∃ e, decode w = .error e) ↔
    w.toNat / 2 ^ 24 ∉ [0x00, 0x01, 0x10, 0x11, 0x12, 0x20, 0x21, 0x30, 0x31, 0x32, 0x40, 0x41, 0x42] ∨
    (w.toNat / 2 ^ 24 ∈ [0x00, 0x01, 0x10, 0x11, 0x12, 0x40, 0x41, 0x42] ∧ w.toNat % 2 ^ 24 ≠ 0) ∨
    (w.toNat / 2 ^ 24 ∈ [0x20, 0x21, 0x31, 0x32] ∧ w.toNat / 2 ^ 16 % 2 ^ 8 ≠ 0) ∨
    (w.toNat / 2 ^ 24 = 0x30 ∧ w.toNat / 2 ^ 19 % 2 ^ 5 ≠ 0)) ∧
  (∀ (s : State) (w : Word) (e : DecodeError) (rest : List Transaction), decode w = .error e →
    s.pending = .write 0x00000#19 w :: rest →
    step s = .next { s with pending := rest, errors := s.errors ||| 0b000001#6 }) ∧
  ((List.range 256).filter (fun op => op ∉
    [0x00, 0x01, 0x10, 0x11, 0x12, 0x20, 0x21, 0x30, 0x31, 0x32, 0x40, 0x41, 0x42])).length = 243 ∧
  (∃ e, decode 0x00000001#32 = .error e) ∧ (∃ e, decode 0x20010000#32 = .error e) ∧
  (∃ e, decode 0x30080000#32 = .error e)

/-! ### The step and the host port -/

/-- When the next transaction writes a Word that decodes to a command to `CMD`, the step is `exec` of that command on the
state without that transaction (10_state.md R33, 20_memory.md R53, 30_encoding.md R85). -/
def Obligations.StepRunsDecodedCommand : Prop :=
  ∀ (s : State) (w : Word) (i : Instr) (rest : List Transaction), decode w = .ok i →
    s.pending = .write 0x00000#19 w :: rest → step s = exec i { s with pending := rest }

/-- Placing a well-formed command's word as the next transaction makes the next step run exactly that command. -/
def Obligations.FetchWordStepRunsCommand : Prop :=
  ∀ (s : State) (i : Instr), i.WellFormed → step (s.withFetchWord 32 (encode i).toNat) = exec i s

/-- Every transaction in every state has a successor state: the machine never stops (60_exceptions.md R207). It consumes the
oldest transaction, a read answers the host exactly one Word and nothing else answers, and with nothing pending the core
holds its state (R205; the lists of pending transactions and of answers are the model's own, log entries 1 and 2). -/
def Obligations.EveryStepHasSuccessor : Prop :=
  ∀ s : State, (s.pending = [] → step s = .next s) ∧ ∃ t, step s = .next t ∧ t.pending = s.pending.tail ∧
    ∃ out : List Word, t.returned = s.returned ++ out ∧
      ((∃ a rest, s.pending = .read a :: rest) → out.length = 1) ∧
      ((¬ ∃ a rest, s.pending = .read a :: rest) → out = [])

/-- 20_memory.md R60: a transaction "sees the complete effect of all earlier ones and none of any later one": however many
transactions `later` follow, the earlier ones do the same. -/
def Obligations.TransactionsUnaffectedByLaterOnes : Prop :=
  ∀ (s : State) (first later : List Transaction), ∃ t : State,
    runSteps first.length { s with pending := first } = .next { t with pending := [] } ∧
    runSteps first.length { s with pending := first ++ later } = .next { t with pending := later } ∧
    ∀ n, runSteps (first.length + n) { s with pending := first ++ later } = runSteps n { t with pending := later }

/-- 20_memory.md R52: a host read returns the named register's or MSG Word's current value and changes nothing else; an
unmapped address returns 0 and sets `E_ADDR`. (Where the answer stands is the model's choice, log entry 2.) -/
def Obligations.HostReadFollowsAddressMap : Prop :=
  ∀ (s : State) (a : Address) (rest : List Transaction), s.pending = .read a :: rest →
    (∀ v : Word,
      (a.toNat = 0x00000 ∧ v = 0#32) ∨
      (a.toNat = 0x00001 ∧ v = 0#20 ++ s.kv ++ 0#2 ++ s.errors) ∨
      (a.toNat = 0x00002 ∧ v = s.len) ∨ (a.toNat = 0x00003 ∧ v = s.gamma) ∨
      (a.toNat = 0x00004 ∧ v = s.opx) ∨ (a.toNat = 0x00005 ∧ v = s.res) ∨
      (a.toNat = 0x00006 ∧ v.toNat = s.cfg.msgWords) ∨
      (a.toNat = 0x00008 ∧ v = s.key.x0) ∨ (a.toNat = 0x00009 ∧ v = s.key.x1) ∨
      (a.toNat = 0x0000A ∧ v = s.key.x2) ∨ (a.toNat = 0x0000B ∧ v = s.key.x3) ∨
      (∃ i : Fin 4, a.toNat = 0x00010 + i.val ∧ v = roundConstant s.cfg i) ∨
      (∃ i : Fin 4, a.toNat = 0x00014 + i.val ∧ v = inverseConstant s.cfg i) ∨
      (a.toNat = 0x00018 ∧ v = s.cfg.kc) ∨
      (∃ i : Nat, i < s.cfg.msgWords ∧ a.toNat = 0x40000 + i ∧ v = s.msg.read i) →
      step s = .next { s with pending := rest, returned := s.returned ++ [v] }) ∧
    (a.toNat = 0x00007 ∨ (0x0000C ≤ a.toNat ∧ a.toNat ≤ 0x0000F) ∨ (0x00019 ≤ a.toNat ∧ a.toNat ≤ 0x3FFFF) ∨
      0x40000 + s.cfg.msgWords ≤ a.toNat →
      step s = .next { s with
        pending := rest, errors := s.errors ||| 0b100000#6, returned := s.returned ++ [0#32] })

/-- 20_memory.md R53 and R64: what a host write does at each address; a read-only or unmapped address raises `E_ADDR` with
"no other change", and a length above `MSGWORDS` raises `E_RANGE`. -/
def Obligations.HostWriteFollowsAddressMap : Prop :=
  ∀ (s : State) (a : Address) (v : Word) (rest : List Transaction), s.pending = .write a v :: rest →
    (a.toNat = 0x00000 → (∀ i, decode v = .ok i → step s = exec i { s with pending := rest }) ∧
      (∀ e, decode v = .error e → step s = .next { s with pending := rest, errors := s.errors ||| 0b000001#6 })) ∧
    (a.toNat = 0x00002 → (v.toNat ≤ s.cfg.msgWords → step s = .next { s with pending := rest, len := v }) ∧
      (s.cfg.msgWords < v.toNat → step s = .next { s with pending := rest, errors := s.errors ||| 0b000010#6 })) ∧
    (a.toNat = 0x00003 → step s = .next { s with pending := rest, gamma := v }) ∧
    (a.toNat = 0x00004 → step s = .next { s with pending := rest, opx := v }) ∧
    (a.toNat = 0x00008 → step s = .next { s with
      pending := rest, key := { s.key with x0 := v }, kv := s.kv ||| 0b0001#4 }) ∧
    (a.toNat = 0x00009 → step s = .next { s with
      pending := rest, key := { s.key with x1 := v }, kv := s.kv ||| 0b0010#4 }) ∧
    (a.toNat = 0x0000A → step s = .next { s with
      pending := rest, key := { s.key with x2 := v }, kv := s.kv ||| 0b0100#4 }) ∧
    (a.toNat = 0x0000B → step s = .next { s with
      pending := rest, key := { s.key with x3 := v }, kv := s.kv ||| 0b1000#4 }) ∧
    (∀ i, i < s.cfg.msgWords → a.toNat = 0x40000 + i → s.msg.wf →
      ∃ t, step s = .next t ∧ t = { s with pending := rest, msg := t.msg } ∧ t.msg.read i = v ∧
        ∀ j, j ≠ i → t.msg.read j = s.msg.read j) ∧
    (a.toNat = 0x00001 ∨ a.toNat = 0x00005 ∨ a.toNat = 0x00006 ∨ a.toNat = 0x00007 ∨
      (0x0000C ≤ a.toNat ∧ a.toNat ≤ 0x3FFFF) ∨ 0x40000 + s.cfg.msgWords ≤ a.toNat →
      step s = .next { s with pending := rest, errors := s.errors ||| 0b100000#6 })

/-- 70_reset_and_hazards.md R224: "A value written by one transaction is seen by the next": for every register and MSG Word
that can be written, a write and then a read of its address return the Word written. -/
def Obligations.WrittenValueReadBackNext : Prop :=
  ∀ (s : State) (a : Address) (v : Word) (rest : List Transaction), s.msg.wf →
    s.pending = .write a v :: .read a :: rest →
    (a.toNat = 0x00002 ∧ v.toNat ≤ s.cfg.msgWords) ∨ a.toNat = 0x00003 ∨ a.toNat = 0x00004 ∨
      (0x00008 ≤ a.toNat ∧ a.toNat ≤ 0x0000B) ∨ (0x40000 ≤ a.toNat ∧ a.toNat < 0x40000 + s.cfg.msgWords) →
    ∃ t, runSteps 2 s = .next t ∧ t.returned = s.returned ++ [v] ∧ t.pending = rest ∧ t.errors = s.errors

/-- 10_state.md R28: every bit of `STATUS`. -/
def Obligations.StatusRegisterLayout : Prop :=
  ∀ (s : State) (i : Nat), s.status.getLsbD i =
    if i ≤ 5 then s.errors.getLsbD i else if 8 ≤ i ∧ i ≤ 11 then s.kv.getLsbD (i - 8) else false

/-- 70_reset_and_hazards.md R220: RESET in any state gives the values of 10_state.md R36, the state the model starts in has
them, and `SRST` gives the same state. (That `pending` and `returned` stay is the model's choice, log entry 4.) -/
def Obligations.ResetGivesSpecifiedValues : Prop :=
  (∀ (s : State) (rest : List Transaction), s.pending = .reset :: rest →
    step s = .next ⟨s.cfg, ⟨0#32, 0#32, 0#32, 0#32⟩, 0b0000#4, [], 0#32, 0#32, 0#32, 0#32, 0b000000#6, rest, s.returned⟩) ∧
  (∀ s : State, exec .srst s =
    .next ⟨s.cfg, ⟨0#32, 0#32, 0#32, 0#32⟩, 0b0000#4, [], 0#32, 0#32, 0#32, 0#32, 0b000000#6, s.pending, s.returned⟩) ∧
  (State.reset.key = ⟨0#32, 0#32, 0#32, 0#32⟩ ∧ State.reset.kv = 0b0000#4 ∧ (∀ i, State.reset.readMsg i = 0#32) ∧
    State.reset.len = 0#32 ∧ State.reset.gamma = 0#32 ∧ State.reset.opx = 0#32 ∧ State.reset.res = 0#32 ∧
    State.reset.status = 0#32)

/-! ### System commands -/

/-- 43_system.md R180: `NOP` leaves the state, its word is 0, and any other word with `op = 0x00` is illegal. -/
def Obligations.NopChangesNothing : Prop :=
  (∀ s : State, exec .nop s = .next s) ∧ decode 0x00000000#32 = .ok .nop ∧
  ∀ w : Word, w.toNat / 2 ^ 24 = 0 → w ≠ 0#32 → ∃ e, decode w = .error e

/-! ### Modular Arithmetic Engine -/

/-- 40_modular_arithmetic.md R102, items 1 to 5 and 7: range, zero, `gamma = M`, one, powers of two, sentinel. -/
def Obligations.GammaMulLaws : Prop :=
  (∀ g x : Word, gammaMul g x = 0xFFFFFFFF#32 ↔ x = 0xFFFFFFFF#32) ∧
  (∀ g : Word, gammaMul g 0#32 = 0#32) ∧
  (∀ x : Word, x ≠ 0xFFFFFFFF#32 → gammaMul 0#32 x = 0#32 ∧ gammaMul 0xFFFFFFFF#32 x = 0#32) ∧
  gammaMul 0#32 0xFFFFFFFF#32 = 0xFFFFFFFF#32 ∧ gammaMul 0xFFFFFFFF#32 0xFFFFFFFF#32 = 0xFFFFFFFF#32 ∧
  (∀ x : Word, gammaMul 1#32 x = x) ∧
  (∀ g : Word, g ≠ 0xFFFFFFFF#32 → gammaMul g 1#32 = g) ∧ gammaMul 0xFFFFFFFF#32 1#32 = 0#32 ∧
  (∀ (k : Nat) (x : Word), 0 < k → k < 32 → gammaMul (BitVec.ofNat 32 (2 ^ k)) x = x.rotateLeft k) ∧
  (∀ (k : Nat) (g : Word), 0 < k → k < 32 → g ≠ 0xFFFFFFFF#32 →
    gammaMul g (BitVec.ofNat 32 (2 ^ k)) = g.rotateLeft k)

/-- 40_modular_arithmetic.md R102, item 6: multiplication by a unit permutes the Words, by a non-unit it does not. -/
def Obligations.GammaMulBijectiveExactlyForUnits : Prop :=
  (∀ g : Word, Nat.gcd g.toNat modulus = 1 → Function.Bijective (gammaMul g)) ∧
  (∀ g : Word, Nat.gcd g.toNat modulus ≠ 1 →
    ∃ x y : Word, x ≠ y ∧ x ≠ 0xFFFFFFFF#32 ∧ y ≠ 0xFFFFFFFF#32 ∧ gammaMul g x = gammaMul g y)

/-- 40_modular_arithmetic.md R103: the reduction without division, step by step with its bounds, gives `GammaMul`; the
model's own function for it does so for every pair of Words. -/
def Obligations.FoldReductionEqualsGammaMul : Prop :=
  (∀ g x : Word, x ≠ 0xFFFFFFFF#32 →
    let p := g.toNat * x.toNat
    let s := p / 2 ^ 32 + p % 2 ^ 32
    let t := s % 2 ^ 32 + s / 2 ^ 32
    p < 2 ^ 64 ∧ s < 2 ^ 33 ∧ t ≤ 2 ^ 32 - 1 ∧
      gammaMul g x = if t = 0xFFFFFFFF then 0#32 else BitVec.ofNat 32 t) ∧
  ∀ g x : Word, gammaMulFold g x = gammaMul g x

/-- 40_modular_arithmetic.md R104: the value of `ModInverse`, its base case, and no value outside the precondition. -/
def Obligations.ModInverseHasSpecifiedValue : Prop :=
  (∀ a : Nat, modInverse a 1 = some 1) ∧
  (∀ a b : Nat, 2 ≤ b → Nat.gcd a b = 1 → ∃ v, modInverse a b = some v ∧ 1 ≤ v ∧ v ≤ b - 1 ∧ a * v % b = 1 ∧
    ∀ v', 1 ≤ v' → v' ≤ b - 1 → a * v' % b = 1 → v' = v) ∧
  (∀ b : Nat, 1 ≤ b → modInverse 1 b = some 1) ∧
  modInverse 10 7 = some 5 ∧ modInverse 3 7 = some 5 ∧
  (∀ a b : Nat, b = 0 ∨ Nat.gcd a b ≠ 1 → modInverse a b = none)

/-- 40_modular_arithmetic.md R106: the sentinel passes through first, for every `gamma`; then the product with the inverse;
and `InverseGammaMul(gamma, y) = GammaMul(ModInverse(gamma, M), y)`. -/
def Obligations.InverseGammaMulValue : Prop :=
  (∀ g : Word, inverseGammaMul g 0xFFFFFFFF#32 = some 0xFFFFFFFF#32) ∧
  (∀ g y : Word, Nat.gcd g.toNat modulus = 1 → ∃ v : Nat, modInverse g.toNat modulus = some v ∧
    (y ≠ 0xFFFFFFFF#32 → inverseGammaMul g y = some (BitVec.ofNat 32 (y.toNat * v % modulus))) ∧
    inverseGammaMul g y = some (gammaMul (BitVec.ofNat 32 v) y)) ∧
  (∀ g y : Word, Nat.gcd g.toNat modulus ≠ 1 → y ≠ 0xFFFFFFFF#32 → inverseGammaMul g y = none)

/-- 40_modular_arithmetic.md R107: both round trips, for every `gamma` coprime to `M` and every Word. -/
def Obligations.GammaMulRoundTrip : Prop :=
  ∀ g x : Word, Nat.gcd g.toNat modulus = 1 →
    inverseGammaMul g (gammaMul g x) = some x ∧ (inverseGammaMul g x).map (gammaMul g) = some x

/-- 40_modular_arithmetic.md R108: `GMUL` answers next, writes `RES` and nothing else. -/
def Obligations.GmulWritesProduct : Prop :=
  decode 0x10000000#32 = .ok .gmul ∧
  ∀ s : State, exec .gmul s = .next { s with
    res := if s.opx = 0xFFFFFFFF#32 then 0xFFFFFFFF#32
      else BitVec.ofNat 32 (s.gamma.toNat * s.opx.toNat % (2 ^ 32 - 1)) }

/-- 40_modular_arithmetic.md R109: `GINV` answers next; the sentinel first, then `E_NOINV` with nothing else changed, else
`RES` gets the product with the inverse of `GAMMA` modulo `M`. -/
def Obligations.GinvWritesQuotientOrRaises : Prop :=
  decode 0x11000000#32 = .ok .ginv ∧
  ∀ s : State,
    (s.opx = 0xFFFFFFFF#32 → exec .ginv s = .next { s with res := 0xFFFFFFFF#32 }) ∧
    (s.opx ≠ 0xFFFFFFFF#32 → Nat.gcd s.gamma.toNat (2 ^ 32 - 1) ≠ 1 →
      exec .ginv s = .next { s with errors := s.errors ||| 0b010000#6 }) ∧
    (s.opx ≠ 0xFFFFFFFF#32 → Nat.gcd s.gamma.toNat (2 ^ 32 - 1) = 1 →
      ∃ v, 1 ≤ v ∧ v ≤ 2 ^ 32 - 2 ∧ s.gamma.toNat * v % (2 ^ 32 - 1) = 1 ∧
        exec .ginv s = .next { s with res := BitVec.ofNat 32 (s.opx.toNat * v % (2 ^ 32 - 1)) })

/-- 40_modular_arithmetic.md R110: `MINV` answers next; `E_NOINV` with nothing else changed outside the precondition, else
`RES` gets the inverse of `GAMMA` modulo `OPX` (1 for `OPX = 1`). -/
def Obligations.MinvWritesInverseOrRaises : Prop :=
  decode 0x12000000#32 = .ok .minv ∧
  ∀ s : State,
    (s.opx = 0#32 ∨ Nat.gcd s.gamma.toNat s.opx.toNat ≠ 1 →
      exec .minv s = .next { s with errors := s.errors ||| 0b010000#6 }) ∧
    (s.opx = 1#32 → exec .minv s = .next { s with res := 1#32 }) ∧
    (2 ≤ s.opx.toNat → Nat.gcd s.gamma.toNat s.opx.toNat = 1 →
      ∃ v : Word, 1 ≤ v.toNat ∧ v.toNat < s.opx.toNat ∧ s.gamma.toNat * v.toNat % s.opx.toNat = 1 ∧
        exec .minv s = .next { s with res := v })

/-- 10_state.md R29: the round constants are rotations of `C0`. -/
def Obligations.RoundConstantsAreRotations : Prop :=
  ∀ cfg : Config, roundConstant cfg 0 = cfg.c0 ∧ roundConstant cfg 1 = cfg.c0.rotateLeft 1 ∧
    roundConstant cfg 2 = cfg.c0.rotateLeft 3 ∧ roundConstant cfg 3 = cfg.c0.rotateLeft 7

/-- 10_state.md R30: `CI[i] = ModInverse(C[i], M)`, each in `[1, M-1]` with `(C[i] * CI[i]) mod M = 1`; all four exist. -/
def Obligations.InverseConstantsInvert : Prop :=
  ∀ (cfg : Config) (i : Fin 4),
    Nat.gcd (roundConstant cfg i).toNat modulus = 1 ∧
    modInverse (roundConstant cfg i).toNat modulus = some (inverseConstant cfg i).toNat ∧
    1 ≤ (inverseConstant cfg i).toNat ∧ (inverseConstant cfg i).toNat ≤ modulus - 1 ∧
    (roundConstant cfg i).toNat * (inverseConstant cfg i).toNat % modulus = 1

/-- 70_reset_and_hazards.md R221: no step changes the configuration, nor any value read from it, and the model starts with
the configured one. -/
def Obligations.ConstantsNeverChange : Prop :=
  State.reset.cfg = Config.built ∧
  ∀ s t : State, reaches s t → t.cfg = s.cfg ∧ (∀ i, roundConstant t.cfg i = roundConstant s.cfg i) ∧
    (∀ i, inverseConstant t.cfg i = inverseConstant s.cfg i)

/-! ### Round Transform -/

/-- 41_round_transform.md R131 to R135: the three stages and the two transforms, stage by stage. -/
def Obligations.TransformStages : Prop :=
  ∀ (cfg : Config) (x0 x1 x2 x3 : Word),
    s1 cfg ⟨x0, x1, x2, x3⟩ = ⟨gammaMul (roundConstant cfg 0) x0, gammaMul (roundConstant cfg 1) x1,
      gammaMul (roundConstant cfg 2) x2, gammaMul (roundConstant cfg 3) x3⟩ ∧
    (x0[0] = true → s2 cfg.kc ⟨x0, x1, x2, x3⟩ = ⟨x0 ^^^ cfg.kc, x1, x2, x3⟩) ∧
    (x0[0] = false → x3[0] = false → s2 cfg.kc ⟨x0, x1, x2, x3⟩ = ⟨x0, x1, x2, x3 ^^^ cfg.kc⟩) ∧
    (x0[0] = false → x3[0] = true → s2 cfg.kc ⟨x0, x1, x2, x3⟩ = ⟨x0, x1, x2, x3⟩) ∧
    s3 ⟨x0, x1, x2, x3⟩ =
      ⟨x3 ^^^ x0 ^^^ x1, x0 ^^^ x1 ^^^ x2, x1 ^^^ x2 ^^^ x3, x2 ^^^ x3 ^^^ x0⟩ ∧
    transform cfg ⟨x0, x1, x2, x3⟩ = s3 (s2 cfg.kc (s1 cfg ⟨x0, x1, x2, x3⟩)) ∧
    inverseTransform cfg ⟨x0, x1, x2, x3⟩ = s1inv cfg (s2 cfg.kc (s3 ⟨x0, x1, x2, x3⟩))

/-- 41_round_transform.md R131: `S1inv` is `InverseGammaMul(C[i], ·)` Word by Word. -/
def Obligations.StageOneInverseIsInverseGammaMul : Prop :=
  ∀ (cfg : Config) (b : Block) (i : Fin 4),
    inverseGammaMul (roundConstant cfg i) (b.get i) = some ((s1inv cfg b).get i)

/-- 41_round_transform.md R137: `S3` is an involution. -/
def Obligations.StageThreeInvolution : Prop :=
  ∀ b : Block, s3 (s3 b) = b

/-- 41_round_transform.md R138: `S2` is an involution if and only if bit 0 of `KC` is 0. -/
def Obligations.StageTwoInvolutionIffEven : Prop :=
  ∀ kc : Word, (∀ b : Block, s2 kc (s2 kc b) = b) ↔ kc[0] = false

/-- 41_round_transform.md R136: `InverseTransform` and `Transform` undo each other, so `Transform` is a permutation. -/
def Obligations.TransformRoundTrip : Prop :=
  ∀ cfg : Config, (∀ b : Block, inverseTransform cfg (transform cfg b) = b) ∧
    (∀ b : Block, transform cfg (inverseTransform cfg b) = b) ∧ Function.Bijective (transform cfg)

/-- 41_round_transform.md R141: the all-zero and the all-ones states, stage by stage. -/
def Obligations.TransformOfZeroAndOnes : Prop :=
  ∀ cfg : Config,
    s1 cfg ⟨0#32, 0#32, 0#32, 0#32⟩ = ⟨0#32, 0#32, 0#32, 0#32⟩ ∧
    s2 cfg.kc ⟨0#32, 0#32, 0#32, 0#32⟩ = ⟨0#32, 0#32, 0#32, cfg.kc⟩ ∧
    s1 cfg ⟨0xFFFFFFFF#32, 0xFFFFFFFF#32, 0xFFFFFFFF#32, 0xFFFFFFFF#32⟩ =
      ⟨0xFFFFFFFF#32, 0xFFFFFFFF#32, 0xFFFFFFFF#32, 0xFFFFFFFF#32⟩ ∧
    s2 cfg.kc ⟨0xFFFFFFFF#32, 0xFFFFFFFF#32, 0xFFFFFFFF#32, 0xFFFFFFFF#32⟩ =
      ⟨0xFFFFFFFF#32 ^^^ cfg.kc, 0xFFFFFFFF#32, 0xFFFFFFFF#32, 0xFFFFFFFF#32⟩ ∧
    transform cfg ⟨0#32, 0#32, 0#32, 0#32⟩ = ⟨cfg.kc, 0#32, cfg.kc, cfg.kc⟩ ∧
    transform cfg ⟨0xFFFFFFFF#32, 0xFFFFFFFF#32, 0xFFFFFFFF#32, 0xFFFFFFFF#32⟩ =
      ⟨0xFFFFFFFF#32 ^^^ cfg.kc, 0xFFFFFFFF#32 ^^^ cfg.kc, 0xFFFFFFFF#32, 0xFFFFFFFF#32 ^^^ cfg.kc⟩ ∧
    (cfg.kc ≠ 0#32 → transform cfg ⟨0#32, 0#32, 0#32, 0#32⟩ ≠ ⟨0#32, 0#32, 0#32, 0#32⟩ ∧
      transform cfg ⟨0xFFFFFFFF#32, 0xFFFFFFFF#32, 0xFFFFFFFF#32, 0xFFFFFFFF#32⟩ ≠
        ⟨0xFFFFFFFF#32, 0xFFFFFFFF#32, 0xFFFFFFFF#32, 0xFFFFFFFF#32⟩)

/-- 41_round_transform.md R139: `XFRM` answers next: `E_RANGE` alone outside the buffer; inside, its four Words become the
Transform of the old ones and nothing else changes (no key, no `LEN` is asked for); a zero block becomes
`(KC, 0, KC, KC)`, and `IXFRM` of the same block then restores the state. -/
def Obligations.XfrmTransformsItsBlock : Prop :=
  (∀ blk, blk < 65536 → decode (0x20000000#32 + BitVec.ofNat 32 blk) = .ok (.xfrm blk)) ∧
  ∀ (s : State) (blk : Nat), s.msg.wf →
    (s.cfg.msgWords ≤ 4 * blk + 3 → exec (.xfrm blk) s = .next { s with errors := s.errors ||| 0b000010#6 }) ∧
    (4 * blk + 3 < s.cfg.msgWords → (∃ t, exec (.xfrm blk) s = .next t ∧ t = { s with msg := t.msg } ∧
      Block.mk (t.readMsg (4 * blk)) (t.readMsg (4 * blk + 1)) (t.readMsg (4 * blk + 2)) (t.readMsg (4 * blk + 3)) =
        transform s.cfg ⟨s.readMsg (4 * blk), s.readMsg (4 * blk + 1), s.readMsg (4 * blk + 2), s.readMsg (4 * blk + 3)⟩ ∧
      (∀ i, i < 4 * blk ∨ 4 * blk + 3 < i → t.readMsg i = s.readMsg i) ∧
      (s.readBlock blk = ⟨0#32, 0#32, 0#32, 0#32⟩ → t.readBlock blk = ⟨s.cfg.kc, 0#32, s.cfg.kc, s.cfg.kc⟩)) ∧
      execAll [.xfrm blk, .ixfrm blk] s = .next s)

/-- 41_round_transform.md R140: `IXFRM`, as `XFRM` with the inverse; a block `(KC, 0, KC, KC)` becomes zeros, and `XFRM` of
the same block then restores the state. -/
def Obligations.IxfrmInverseTransformsItsBlock : Prop :=
  (∀ blk, blk < 65536 → decode (0x21000000#32 + BitVec.ofNat 32 blk) = .ok (.ixfrm blk)) ∧
  ∀ (s : State) (blk : Nat), s.msg.wf →
    (s.cfg.msgWords ≤ 4 * blk + 3 → exec (.ixfrm blk) s = .next { s with errors := s.errors ||| 0b000010#6 }) ∧
    (4 * blk + 3 < s.cfg.msgWords → (∃ t, exec (.ixfrm blk) s = .next t ∧ t = { s with msg := t.msg } ∧
      Block.mk (t.readMsg (4 * blk)) (t.readMsg (4 * blk + 1)) (t.readMsg (4 * blk + 2)) (t.readMsg (4 * blk + 3)) =
        inverseTransform s.cfg
          ⟨s.readMsg (4 * blk), s.readMsg (4 * blk + 1), s.readMsg (4 * blk + 2), s.readMsg (4 * blk + 3)⟩ ∧
      (∀ i, i < 4 * blk ∨ 4 * blk + 3 < i → t.readMsg i = s.readMsg i) ∧
      (s.readBlock blk = ⟨s.cfg.kc, 0#32, s.cfg.kc, s.cfg.kc⟩ → t.readBlock blk = ⟨0#32, 0#32, 0#32, 0#32⟩)) ∧
      execAll [.ixfrm blk, .xfrm blk] s = .next s)

/-! ### Block Cipher Driver -/

/-- 42_block_driver.md R150: the padding law. -/
def Obligations.PaddingLaw : Prop :=
  pad [] = [] ∧
  ∀ m : List Word, (pad m).length % 4 = 0 ∧ (m.length % 4 = 0 → pad m = m) ∧
    (m.length % 4 = 1 → pad m = m ++ [0#32, 0#32, 0#32]) ∧ (m.length % 4 = 2 → pad m = m ++ [0#32, 0#32]) ∧
    (m.length % 4 = 3 → pad m = m ++ [0#32]) ∧ pad (pad m) = pad m

/-- 42_block_driver.md R152: the net effect of `KeyMix`, whatever the round, and that it undoes itself. -/
def Obligations.KeyMixNetEffect : Prop :=
  (∀ (b : Block) (k : Key) (r : Nat),
    keyMix b k r = ⟨b.x0 ^^^ k.x0, b.x1 ^^^ k.x1, b.x2 ^^^ k.x2, b.x3 ^^^ k.x3⟩) ∧
  ∀ (b : Block) (k : Key) (r r' : Nat), keyMix (keyMix b k r) k r' = b

/-- 42_block_driver.md R153: six rounds, in each the subkey XOR and then `Transform`, rounds 0 to 5. -/
def Obligations.EncryptBlockIsSixRounds : Prop :=
  ∀ (cfg : Config) (k : Key) (b : Block), encryptBlock cfg k b =
    transform cfg (keyMix (transform cfg (keyMix (transform cfg (keyMix (transform cfg (keyMix
      (transform cfg (keyMix (transform cfg (keyMix b k 0)) k 1)) k 2)) k 3)) k 4)) k 5)

/-- 42_block_driver.md R154: six rounds, in each `InverseTransform` and then the subkey XOR, rounds 0 to 5 or 5
to 0 alike; `DecryptBlock` and `EncryptBlock` under one key undo each other. -/
def Obligations.DecryptBlockUndoesEncryptBlock : Prop :=
  ∀ (cfg : Config) (k : Key) (b : Block),
    decryptBlock cfg k b = keyMix (inverseTransform cfg (keyMix (inverseTransform cfg (keyMix (inverseTransform cfg
      (keyMix (inverseTransform cfg (keyMix (inverseTransform cfg (keyMix (inverseTransform cfg b) k 0)) k 1)) k 2)) k 3))
      k 4)) k 5 ∧
    decryptBlock cfg k b = [5, 4, 3, 2, 1, 0].foldl (fun x r => keyMix (inverseTransform cfg x) k r) b ∧
    decryptBlock cfg k (encryptBlock cfg k b) = b ∧ encryptBlock cfg k (decryptBlock cfg k b) = b

/-- 42_block_driver.md R155, R156, R166: `Encrypt` and `Decrypt` keep the padded length, and their block `b` is
`EncryptBlock` or `DecryptBlock` of block `b` of the padded input, of nothing else. -/
def Obligations.MessageFunctionsActBlockwise : Prop :=
  ∀ (cfg : Config) (k : Key) (data : List Word),
    encrypt cfg k [] = [] ∧ decrypt cfg k [] = [] ∧
    (encrypt cfg k data).length = (pad data).length ∧ (decrypt cfg k data).length = (pad data).length ∧
    ∀ (b : Nat) (x0 x1 x2 x3 : Word), (pad data)[4 * b]? = some x0 → (pad data)[4 * b + 1]? = some x1 →
      (pad data)[4 * b + 2]? = some x2 → (pad data)[4 * b + 3]? = some x3 → ∀ j : Fin 4,
      (encrypt cfg k data)[4 * b + j.val]? = some ((encryptBlock cfg k ⟨x0, x1, x2, x3⟩).get j) ∧
      (decrypt cfg k data)[4 * b + j.val]? = some ((decryptBlock cfg k ⟨x0, x1, x2, x3⟩).get j)

/-- 42_block_driver.md R157: "`Decrypt(Encrypt(m, k), k) == Pad(m)` for all messages `m` and all keys `k`". -/
def Obligations.DecryptOfEncryptIsPad : Prop :=
  ∀ (cfg : Config) (k : Key) (m : List Word), decrypt cfg k (encrypt cfg k m) = pad m

/-- 42_block_driver.md R159: `KXOR` answers next: `E_RANGE`, then `E_KEY`, each alone; else the key is XORed into its block
and nothing else changes, whatever the round, and a second `KXOR` of the block restores the state. -/
def Obligations.KxorMixesKeyIntoItsBlock : Prop :=
  (∀ blk r, blk < 65536 → r < 8 →
    decode (0x30000000#32 + BitVec.ofNat 32 (r * 65536) + BitVec.ofNat 32 blk) = .ok (.kxor blk r)) ∧
  ∀ (s : State) (blk r : Nat), s.msg.wf →
    (5 < r ∨ s.cfg.msgWords ≤ 4 * blk + 3 →
      exec (.kxor blk r) s = .next { s with errors := s.errors ||| 0b000010#6 }) ∧
    (r ≤ 5 → 4 * blk + 3 < s.cfg.msgWords → s.kv ≠ 0b1111#4 →
      exec (.kxor blk r) s = .next { s with errors := s.errors ||| 0b000100#6 }) ∧
    (r ≤ 5 → 4 * blk + 3 < s.cfg.msgWords → s.kv = 0b1111#4 →
      ∃ t, exec (.kxor blk r) s = .next t ∧ t = { s with msg := t.msg } ∧
        t.readMsg (4 * blk) = s.readMsg (4 * blk) ^^^ s.key.x0 ∧
        t.readMsg (4 * blk + 1) = s.readMsg (4 * blk + 1) ^^^ s.key.x1 ∧
        t.readMsg (4 * blk + 2) = s.readMsg (4 * blk + 2) ^^^ s.key.x2 ∧
        t.readMsg (4 * blk + 3) = s.readMsg (4 * blk + 3) ^^^ s.key.x3 ∧
        (∀ i, i < 4 * blk ∨ 4 * blk + 3 < i → t.readMsg i = s.readMsg i) ∧
        ∀ r', r' ≤ 5 → exec (.kxor blk r') t = .next s)

/-- 42_block_driver.md R160: `ENCB` answers next: `E_RANGE`, then `E_KEY`, each alone; else its block is encrypted and
nothing else changes. -/
def Obligations.EncbEncryptsItsBlock : Prop :=
  (∀ blk, blk < 65536 → decode (0x31000000#32 + BitVec.ofNat 32 blk) = .ok (.encb blk)) ∧
  ∀ (s : State) (blk : Nat), s.msg.wf →
    (s.cfg.msgWords ≤ 4 * blk + 3 → exec (.encb blk) s = .next { s with errors := s.errors ||| 0b000010#6 }) ∧
    (4 * blk + 3 < s.cfg.msgWords → s.kv ≠ 0b1111#4 →
      exec (.encb blk) s = .next { s with errors := s.errors ||| 0b000100#6 }) ∧
    (4 * blk + 3 < s.cfg.msgWords → s.kv = 0b1111#4 → ∃ t, exec (.encb blk) s = .next t ∧ t = { s with msg := t.msg } ∧
      Block.mk (t.readMsg (4 * blk)) (t.readMsg (4 * blk + 1)) (t.readMsg (4 * blk + 2)) (t.readMsg (4 * blk + 3)) =
        encryptBlock s.cfg s.key
          ⟨s.readMsg (4 * blk), s.readMsg (4 * blk + 1), s.readMsg (4 * blk + 2), s.readMsg (4 * blk + 3)⟩ ∧
      ∀ i, i < 4 * blk ∨ 4 * blk + 3 < i → t.readMsg i = s.readMsg i)

/-- 42_block_driver.md R161: `DECB` answers next: `E_RANGE`, then `E_KEY`, each alone; else its block is decrypted, nothing
else changes, and `ENCB` followed by `DECB` restores the state. -/
def Obligations.DecbDecryptsItsBlock : Prop :=
  (∀ blk, blk < 65536 → decode (0x32000000#32 + BitVec.ofNat 32 blk) = .ok (.decb blk)) ∧
  ∀ (s : State) (blk : Nat), s.msg.wf →
    (s.cfg.msgWords ≤ 4 * blk + 3 → exec (.decb blk) s = .next { s with errors := s.errors ||| 0b000010#6 }) ∧
    (4 * blk + 3 < s.cfg.msgWords → s.kv ≠ 0b1111#4 →
      exec (.decb blk) s = .next { s with errors := s.errors ||| 0b000100#6 }) ∧
    (4 * blk + 3 < s.cfg.msgWords → s.kv = 0b1111#4 → (∃ t, exec (.decb blk) s = .next t ∧ t = { s with msg := t.msg } ∧
      Block.mk (t.readMsg (4 * blk)) (t.readMsg (4 * blk + 1)) (t.readMsg (4 * blk + 2)) (t.readMsg (4 * blk + 3)) =
        decryptBlock s.cfg s.key
          ⟨s.readMsg (4 * blk), s.readMsg (4 * blk + 1), s.readMsg (4 * blk + 2), s.readMsg (4 * blk + 3)⟩ ∧
      ∀ i, i < 4 * blk ∨ 4 * blk + 3 < i → t.readMsg i = s.readMsg i) ∧
      execAll [.encb blk, .decb blk] s = .next s)

/-- 42_block_driver.md R162: `PAD` answers next, writes zeros to the padding Words and the padded length to `LEN`, and
changes nothing else; the padded length stays within the buffer. -/
def Obligations.PadCommandZeroPads : Prop :=
  decode 0x40000000#32 = .ok .pad ∧
  ∀ s : State, s.Inv → ∃ t, exec .pad s = .next t ∧ t = { s with msg := t.msg, len := t.len } ∧
    t.len.toNat = s.len.toNat + (4 - s.len.toNat % 4) % 4 ∧ t.len.toNat ≤ s.cfg.msgWords ∧
    (∀ i, s.len.toNat ≤ i → i < t.len.toNat → t.readMsg i = 0#32) ∧
    (∀ i, i < s.len.toNat ∨ t.len.toNat ≤ i → t.readMsg i = s.readMsg i) ∧
    (s.len.toNat % 4 = 0 → t = s) ∧ exec .pad t = .next t

/-- 42_block_driver.md R163: `ENC` answers next: without a key it raises `E_KEY` alone, before anything is padded; else the
Message becomes `Encrypt` of the old one, `LEN` the padded length, and nothing else changes. -/
def Obligations.EncEncryptsMessageInPlace : Prop :=
  decode 0x41000000#32 = .ok .enc ∧
  ∀ s : State, s.Inv →
    (s.kv ≠ 0b1111#4 → exec .enc s = .next { s with errors := s.errors ||| 0b000100#6 }) ∧
    (s.kv = 0b1111#4 → ∃ t, exec .enc s = .next t ∧ t = { s with msg := t.msg, len := t.len } ∧
      t.len.toNat = s.len.toNat + (4 - s.len.toNat % 4) % 4 ∧
      (List.range t.len.toNat).map t.readMsg = encrypt s.cfg s.key ((List.range s.len.toNat).map s.readMsg) ∧
      (∀ i, t.len.toNat ≤ i → t.readMsg i = s.readMsg i) ∧ (s.len = 0#32 → t = s))

/-- 42_block_driver.md R164: `DEC` answers next: `E_KEY`, then `E_ALIGN`, each alone; else the Message becomes `Decrypt` of
the old one, `LEN` stays, and nothing else changes. -/
def Obligations.DecDecryptsMessageInPlace : Prop :=
  decode 0x42000000#32 = .ok .dec ∧
  ∀ s : State, s.Inv →
    (s.kv ≠ 0b1111#4 → exec .dec s = .next { s with errors := s.errors ||| 0b000100#6 }) ∧
    (s.kv = 0b1111#4 → s.len.toNat % 4 ≠ 0 → exec .dec s = .next { s with errors := s.errors ||| 0b001000#6 }) ∧
    (s.kv = 0b1111#4 → s.len.toNat % 4 = 0 → ∃ t, exec .dec s = .next t ∧ t = { s with msg := t.msg } ∧
      (List.range t.len.toNat).map t.readMsg = decrypt s.cfg s.key ((List.range s.len.toNat).map s.readMsg) ∧
      (∀ i, s.len.toNat ≤ i → t.readMsg i = s.readMsg i) ∧ (s.len = 0#32 → t = s))

/-- `ENC` and then `DEC` leave exactly what `PAD` leaves (42_block_driver.md R157, R163, R164). -/
def Obligations.EncThenDecIsPad : Prop :=
  ∀ s : State, s.Inv → s.kv = 0b1111#4 → execAll [.enc, .dec] s = exec .pad s

/-- 42_block_driver.md R165: macro commands do what the micro commands they stand for do, for every state with
`KV = 0b1111` (of the model's invariant). -/
def Obligations.MacroCommandsEqualMicroCommands : Prop :=
  ∀ s : State, s.Inv → s.kv = 0b1111#4 →
    (∀ b, execAll [.kxor b 0, .xfrm b, .kxor b 1, .xfrm b, .kxor b 2, .xfrm b,
      .kxor b 3, .xfrm b, .kxor b 4, .xfrm b, .kxor b 5, .xfrm b] s = exec (.encb b) s) ∧
    (∀ b, execAll [.ixfrm b, .kxor b 0, .ixfrm b, .kxor b 1, .ixfrm b, .kxor b 2,
      .ixfrm b, .kxor b 3, .ixfrm b, .kxor b 4, .ixfrm b, .kxor b 5] s = exec (.decb b) s) ∧
    execAll (.pad :: (List.range ((s.len.toNat + (4 - s.len.toNat % 4) % 4) / 4)).map Instr.encb) s = exec .enc s ∧
    (s.len.toNat % 4 = 0 → execAll ((List.range (s.len.toNat / 4)).map Instr.decb) s = exec .dec s)

/-- 70_reset_and_hazards.md R228: two `ENC` commands on states that agree on `K`, `LEN` and the Message, and differ in
anything else, leave the same Message and length. -/
def Obligations.EncDependsOnlyOnKeyAndMessage : Prop :=
  ∀ s s' : State, s.Inv → s'.Inv → s.cfg = s'.cfg → s.kv = 0b1111#4 → s'.kv = 0b1111#4 → s.key = s'.key →
    s.len = s'.len → (∀ i, i < s.len.toNat → s.readMsg i = s'.readMsg i) →
    ∃ t t', exec .enc s = .next t ∧ exec .enc s' = .next t' ∧ t.len = t'.len ∧
      ∀ i, i < t.len.toNat → t.readMsg i = t'.readMsg i

/-! ### Whole machine -/

/-- 20_memory.md R66 with R65: what each command leaves alone, and that of all commands only the three MAE commands
depend on `GAMMA`, `OPX` or `RES`. (`SRST` resets those registers, 43_system.md R181: log entry 11.) -/
def Obligations.CommandFrames : Prop :=
  ∀ (s t : State) (i : Instr), s.msg.wf → exec i s = .next t →
    (i = .nop → t = s) ∧
    (i = .gmul ∨ i = .ginv ∨ i = .minv → t = { s with res := t.res, errors := t.errors }) ∧
    ((∃ b, i = .xfrm b ∨ i = .ixfrm b ∨ i = .encb b ∨ i = .decb b ∨ ∃ r, i = .kxor b r) →
      t = { s with msg := t.msg, errors := t.errors }) ∧
    (∀ b, i = .xfrm b ∨ i = .ixfrm b ∨ i = .encb b ∨ i = .decb b ∨ (∃ r, i = .kxor b r) →
      ∀ j, j < 4 * b ∨ 4 * b + 3 < j → t.readMsg j = s.readMsg j) ∧
    (i = .pad ∨ i = .enc → t = { s with msg := t.msg, len := t.len, errors := t.errors }) ∧
    (i = .pad → ∀ j, j < s.len.toNat ∨ s.len.toNat + (4 - s.len.toNat % 4) % 4 ≤ j → t.readMsg j = s.readMsg j) ∧
    (i = .enc → ∀ j, s.len.toNat + (4 - s.len.toNat % 4) % 4 ≤ j → t.readMsg j = s.readMsg j) ∧
    (i = .dec → t = { s with msg := t.msg, errors := t.errors } ∧
      ∀ j, s.len.toNat ≤ j → t.readMsg j = s.readMsg j) ∧
    (i ≠ .gmul → i ≠ .ginv → i ≠ .minv → i ≠ .srst → ∀ g x r,
      exec i { s with gamma := g, opx := x, res := r } = .next { t with gamma := g, opx := x, res := r })

/-- The invariant of 10_state.md R38 over the model's data, kept by every step from every state that meets it. -/
def Obligations.StepKeepsStateInvariant : Prop :=
  ∀ s t : State, s.Inv → step s = .next t → t.Inv

/-- The reset state meets the invariant. -/
def Obligations.ResetSatisfiesStateInvariant : Prop := State.reset.Inv

/-- 10_state.md R22 and R38: over one step, a key-valid bit is set exactly if the host writes that key register, or it was
set and the step is no reset. -/
def Obligations.KeyValidBitsTrackKeyWrites : Prop :=
  ∀ (s t : State) (i : Fin 4), step s = .next t →
    (t.kv.getLsbD i.val = true ↔
      (∃ a v rest, s.pending = .write a v :: rest ∧ a.toNat = 0x00008 + i.val) ∨
      (s.kv.getLsbD i.val = true ∧
        ¬ ∃ rest, s.pending = .reset :: rest ∨ s.pending = .write 0x00000#19 0x01000000#32 :: rest))

/-- 10_state.md R21, R22, R25, R26: no command but `SRST` writes a key register, a key-valid bit, `GAMMA` or `OPX`; a step
changes one only if it is a reset or a host write of that register, for a key-valid bit of its key register, which sets
it. -/
def Obligations.OnlyHostWritesChangeInputRegisters : Prop :=
  (∀ (s t : State) (i : Instr), i ≠ .srst → exec i s = .next t →
    t.key = s.key ∧ t.kv = s.kv ∧ t.gamma = s.gamma ∧ t.opx = s.opx) ∧
  ∀ s t : State, step s = .next t →
    (∃ rest, s.pending = .reset :: rest ∨ s.pending = .write 0x00000#19 0x01000000#32 :: rest) ∨
    ((∀ i : Fin 4, t.key.get i ≠ s.key.get i →
        ∃ a v rest, s.pending = .write a v :: rest ∧ a.toNat = 0x00008 + i.val ∧ t.key.get i = v) ∧
      (∀ i : Fin 4, t.kv.getLsbD i.val ≠ s.kv.getLsbD i.val →
        ∃ a v rest, s.pending = .write a v :: rest ∧ a.toNat = 0x00008 + i.val ∧ t.kv.getLsbD i.val = true) ∧
      (t.gamma ≠ s.gamma → ∃ v rest, s.pending = .write 0x00003#19 v :: rest ∧ t.gamma = v) ∧
      (t.opx ≠ s.opx → ∃ v rest, s.pending = .write 0x00004#19 v :: rest ∧ t.opx = v))

/-- 60_exceptions.md R190, R207: a transaction leaves the error bits as they were, or is a reset and clears them, or raises
one error and changes nothing but that bit (and, for a read, returns 0 to the host). -/
def Obligations.TransactionRaisesAtMostOneErrorPrecisely : Prop :=
  ∀ (s : State) (x : Transaction) (rest : List Transaction), s.pending = x :: rest → ∃ t, step s = .next t ∧
    (t.errors = s.errors ∨
      ((x = .reset ∨ x = .write 0x00000#19 0x01000000#32) ∧ t.errors = 0b000000#6) ∨
      ∃ e : Nat, e < 6 ∧ s.errors.getLsbD e = false ∧ ∃ out : List Word,
        t = { s with pending := rest, errors := s.errors ||| BitVec.ofNat 6 (2 ^ e), returned := s.returned ++ out } ∧
        ((∃ a, x = .read a) → out = [0#32]) ∧ ((¬ ∃ a, x = .read a) → out = []))

/-- 60_exceptions.md R201: an error bit is cleared only by RESET or `SRST`, which also erase the Key and the Message. -/
def Obligations.ErrorBitsClearedOnlyByReset : Prop :=
  ∀ (s t : State) (e : Nat), step s = .next t → s.errors.getLsbD e = true → t.errors.getLsbD e = false →
    (∃ rest, s.pending = .reset :: rest ∨ s.pending = .write 0x00000#19 0x01000000#32 :: rest) ∧
    t.key = ⟨0#32, 0#32, 0#32, 0#32⟩ ∧ t.kv = 0b0000#4 ∧ t.len = 0#32 ∧ ∀ i, t.readMsg i = 0#32

/-- 60_exceptions.md R199: "later transactions execute exactly as their rules say, as if the error bit were not there":
over any number of steps, runs from two states that differ in their error bits alone set the same error bits, with a reset
among the transactions end in one and the same, and differ in nothing else but the answers of reads of `STATUS`
(`0x00001`), there by the error bits of the start alone: every other read is answered alike. (The lists of pending
transactions and of answers are the model's own, log entries 1 and 2.) -/
def Obligations.ErrorBitsNeverInfluenceExecution : Prop :=
  ∀ (n : Nat) (s : State) (e : BitVec 6), ∃ t e' out out',
    runSteps n s = .next t ∧ t.returned = s.returned ++ out ∧
    runSteps n { s with errors := e } = .next { t with errors := e', returned := s.returned ++ out' } ∧
    out.length = (readAddresses (s.pending.take n)).length ∧
    out'.length = (readAddresses (s.pending.take n)).length ∧
    (if .reset ∈ s.pending.take n ∨ .write 0x00000#19 0x01000000#32 ∈ s.pending.take n then e' = t.errors
      else ∃ r : BitVec 6, t.errors = s.errors ||| r ∧ e' = e ||| r) ∧
    ∀ (k : Nat) (a : Address) (v v' : Word),
      (readAddresses (s.pending.take n))[k]? = some a → out[k]? = some v → out'[k]? = some v' →
      (a = 0x00001#19 → v' = v ∨ ∃ r : Word, v = r ||| s.errors.setWidth 32 ∧ v' = r ||| e.setWidth 32) ∧
      (a ≠ 0x00001#19 → v' = v)

/-- The pseudo-instructions `SETKEY`, `SETLEN` and `LDMSG` (30_encoding.md R90) as the host's next transactions: the key is
loaded and valid, the length written, the Words stored in ascending order, and nothing else changes. -/
def Obligations.LoadingPseudoInstructions : Prop :=
  (∀ (s : State) (k : Key) (rest : List Transaction), s.pending = setKey k ++ rest →
    runSteps 4 s = .next { s with pending := rest, key := k, kv := 0b1111#4 }) ∧
  (∀ (s : State) (n : Word) (rest : List Transaction), s.pending = setLength n ++ rest → n.toNat ≤ s.cfg.msgWords →
    runSteps 1 s = .next { s with pending := rest, len := n }) ∧
  ∀ (s : State) (i : Nat) (ws : List Word) (rest : List Transaction), s.msg.wf → i + ws.length ≤ s.cfg.msgWords →
    s.pending = loadMessage i ws ++ rest → ∃ t, runSteps ws.length s = .next t ∧
      t = { s with pending := rest, msg := t.msg } ∧
      (∀ (j : Nat) (w : Word), ws[j]? = some w → t.readMsg (i + j) = w) ∧
      ∀ j, j < i ∨ i + ws.length ≤ j → t.readMsg j = s.readMsg j

/-- The pseudo-instructions `MULQ` and `INVQ` (30_encoding.md R90) as the host's next four transactions: what their read
returns, what they leave in the registers, and that nothing else changes. -/
def Obligations.MulqAndInvqReturnResults : Prop :=
  ∀ s : State,
    (∀ g x rest, s.pending = mulq g x ++ rest →
      runSteps 4 s = .next { s with
        pending := rest, gamma := g, opx := x, res := gammaMul g x, returned := s.returned ++ [gammaMul g x] }) ∧
    (∀ (a : Word) rest, Nat.gcd a.toNat modulus = 1 → s.pending = invq a ++ rest → ∃ v : Word, gammaMul a v = 1#32 ∧
      runSteps 4 s = .next { s with
        pending := rest, gamma := a, opx := 0xFFFFFFFF#32, res := v, returned := s.returned ++ [v] }) ∧
    (∀ (a : Word) rest, Nat.gcd a.toNat modulus ≠ 1 → s.pending = invq a ++ rest →
      runSteps 4 s = .next { s with
        pending := rest, gamma := a, opx := 0xFFFFFFFF#32, errors := s.errors ||| 0b010000#6,
        returned := s.returned ++ [s.res] })
end

