-- ==== Sys2Proof/Laws/Decode.lean ====
section
/-! SUPPORT. The opcode map as arithmetic: each mask keeps the upper bits of a Word, so a row matches exactly when the
quotient by the power of two below its mask is the row's. -/

namespace Sys2Proof

/-- A mask of all bits from `k` up keeps a Word's quotient by `2^k`. -/
theorem and_highMask_toNat (w : Word) (k : Nat) (hk : k ≤ 32) :
    (w &&& BitVec.ofNat 32 (2 ^ 32 - 2 ^ k)).toNat = w.toNat / 2 ^ k * 2 ^ k := by
  have hmask : (BitVec.ofNat 32 (2 ^ 32 - 2 ^ k)).toNat = 2 ^ 32 - 2 ^ k := by
    rw [BitVec.toNat_ofNat]
    exact Nat.mod_eq_of_lt (Nat.sub_lt (Nat.two_pow_pos 32) (Nat.two_pow_pos k))
  apply Nat.eq_of_testBit_eq
  intro i
  rw [BitVec.toNat_and, hmask, Nat.testBit_and, ← Nat.shiftLeft_eq, ← Nat.shiftRight_eq_div_pow, Nat.testBit_shiftLeft,
    Nat.testBit_shiftRight]
  have hsplit : 2 ^ 32 - 2 ^ k = 2 ^ k * (2 ^ (32 - k) - 1) := by
    rw [Nat.mul_sub, ← Nat.pow_add]
    congr 2
    · omega
    · omega
  rw [hsplit, Nat.mul_comm, ← Nat.shiftLeft_eq, Nat.testBit_shiftLeft, Nat.testBit_two_pow_sub_one]
  by_cases hik : k ≤ i
  · have hi : k + (i - k) = i := by omega
    simp only [hik, decide_true, Bool.true_and, hi]
    by_cases h32 : i < 32
    · have : i - k < 32 - k := by omega
      simp [this]
    · have : w.toNat.testBit i = false :=
        Nat.testBit_lt_two_pow (lt_of_lt_of_le w.isLt (Nat.pow_le_pow_right (by omega) (by omega)))
      simp [this]
  · simp [hik]

/-- When a row with the mask of all bits from `k` up matches. -/
theorem and_highMask_eq_iff (w p : Word) (k : Nat) (hk : k ≤ 32) (hp : p.toNat % 2 ^ k = 0) :
    w &&& BitVec.ofNat 32 (2 ^ 32 - 2 ^ k) = p ↔ w.toNat / 2 ^ k = p.toNat / 2 ^ k := by
  rw [← BitVec.toNat_inj, and_highMask_toNat w k hk]
  have hpos : 0 < 2 ^ k := Nat.two_pow_pos k
  constructor
  · intro h
    rw [← h, Nat.mul_div_cancel _ hpos]
  · intro h
    rw [h, Nat.div_mul_cancel (Nat.dvd_of_mod_eq_zero hp)]

/-- A row of format N. -/
theorem and_maskN_eq_iff (w p : Word) : w &&& 0xFFFFFFFF#32 = p ↔ w.toNat = p.toNat := by
  have h := and_highMask_eq_iff w p 0 (by omega) (Nat.mod_one _)
  simpa using h

/-- A row of format B. -/
theorem and_maskB_eq_iff (w p : Word) (hp : p.toNat % 2 ^ 16 = 0) :
    w &&& 0xFFFF0000#32 = p ↔ w.toNat / 65536 = p.toNat / 65536 :=
  and_highMask_eq_iff w p 16 (by omega) hp

/-- The row of format R. -/
theorem and_maskR_eq_iff (w p : Word) (hp : p.toNat % 2 ^ 19 = 0) :
    w &&& 0xFFF80000#32 = p ↔ w.toNat / 524288 = p.toNat / 524288 :=
  and_highMask_eq_iff w p 19 (by omega) hp

theorem opField_eq (w : Word) : opField w = w.toNat / 2 ^ 24 := by
  have := w.isLt
  simp only [opField, BitVec.extractLsb'_toNat, Nat.shiftRight_eq_div_pow]
  omega

theorem blkField_eq (w : Word) : blkField w = w.toNat % 2 ^ 16 := by
  simp only [blkField, BitVec.extractLsb'_toNat, Nat.shiftRight_eq_div_pow, Nat.pow_zero, Nat.div_one]

theorem roundField_eq (w : Word) : roundField w = w.toNat / 2 ^ 16 % 2 ^ 3 := by
  simp only [roundField, BitVec.extractLsb'_toNat, Nat.shiftRight_eq_div_pow]

/-- The first matching row, as a chain of comparisons of numbers: the one lemma about the opcode map later proofs cite. -/
theorem matchRow_opcodeRows (w : Word) : matchRow w opcodeRows =
    let n := w.toNat
    if n = 0x00000000 then some .nop else if n = 0x01000000 then some .srst
    else if n = 0x10000000 then some .gmul else if n = 0x11000000 then some .ginv
    else if n = 0x12000000 then some .minv
    else if n / 65536 = 0x2000 then some (.xfrm (n % 65536))
    else if n / 65536 = 0x2100 then some (.ixfrm (n % 65536))
    else if n / 524288 = 0x600 then some (.kxor (n % 65536) (n / 65536 % 8))
    else if n / 65536 = 0x3100 then some (.encb (n % 65536))
    else if n / 65536 = 0x3200 then some (.decb (n % 65536))
    else if n = 0x40000000 then some .pad else if n = 0x41000000 then some .enc
    else if n = 0x42000000 then some .dec else none := by
  have hB (p : Word) (hp : p.toNat % 2 ^ 16 = 0) := and_maskB_eq_iff w p hp
  have hR (p : Word) (hp : p.toNat % 2 ^ 19 = 0) := and_maskR_eq_iff w p hp
  simp only [opcodeRows, matchRow, and_maskN_eq_iff, hB 0x20000000#32 (by decide), hB 0x21000000#32 (by decide),
    hB 0x31000000#32 (by decide), hB 0x32000000#32 (by decide), hR 0x30000000#32 (by decide), blkField_eq, roundField_eq,
    BitVec.toNat_ofNat]
  rfl

theorem ite_some_eq_some {α : Type} {c : Prop} [Decidable c] {x i : α} {r : Option α} :
    (if c then some x else r) = some i ↔ (i = x ∧ c) ∨ (¬ c ∧ r = some i) := by
  by_cases h : c <;> simp [h, eq_comm]

theorem ite_some_eq_none {α : Type} {c : Prop} [Decidable c] {x : α} {r : Option α} :
    (if c then some x else r) = none ↔ ¬ c ∧ r = none := by
  by_cases h : c <;> simp [h]

theorem decode_ok_iff (w : Word) (i : Instr) : decode w = .ok i ↔ matchRow w opcodeRows = some i := by
  unfold decode
  cases matchRow w opcodeRows <;> simp

theorem decode_error_iff (w : Word) : (∃ e, decode w = .error e) ↔ matchRow w opcodeRows = none := by
  unfold decode
  cases matchRow w opcodeRows <;> simp

/-- What a Word that decodes is, as a number, for each command it can decode to. -/
theorem decode_ok_cases {w : Word} {i : Instr} (h : decode w = .ok i) :
    (i = .nop ∧ w.toNat = 0x00000000) ∨ (i = .srst ∧ w.toNat = 0x01000000) ∨
    (i = .gmul ∧ w.toNat = 0x10000000) ∨ (i = .ginv ∧ w.toNat = 0x11000000) ∨ (i = .minv ∧ w.toNat = 0x12000000) ∨
    (i = .xfrm (w.toNat % 65536) ∧ w.toNat / 65536 = 0x2000) ∨
    (i = .ixfrm (w.toNat % 65536) ∧ w.toNat / 65536 = 0x2100) ∨
    (i = .kxor (w.toNat % 65536) (w.toNat / 65536 % 8) ∧ w.toNat / 524288 = 0x600) ∨
    (i = .encb (w.toNat % 65536) ∧ w.toNat / 65536 = 0x3100) ∨
    (i = .decb (w.toNat % 65536) ∧ w.toNat / 65536 = 0x3200) ∨
    (i = .pad ∧ w.toNat = 0x40000000) ∨ (i = .enc ∧ w.toNat = 0x41000000) ∨ (i = .dec ∧ w.toNat = 0x42000000) := by
  rw [decode_ok_iff, matchRow_opcodeRows] at h
  simp only [ite_some_eq_some, reduceCtorEq, and_false, or_false] at h
  rcases h with h | ⟨-, h | ⟨-, h | ⟨-, h | ⟨-, h | ⟨-, h | ⟨-, h | ⟨-, h | ⟨-, h | ⟨-, h | ⟨-, h | ⟨-, h | ⟨-, h⟩⟩⟩⟩⟩⟩⟩⟩⟩⟩⟩⟩ <;>
    simp only [h, true_and, true_or, or_true]

/-- A Word is illegal exactly if it is none of the thirteen commands, as numbers. -/
theorem decode_error_iff_toNat (w : Word) : (∃ e, decode w = .error e) ↔
    w.toNat ≠ 0x00000000 ∧ w.toNat ≠ 0x01000000 ∧ w.toNat ≠ 0x10000000 ∧ w.toNat ≠ 0x11000000 ∧
    w.toNat ≠ 0x12000000 ∧ w.toNat / 65536 ≠ 0x2000 ∧ w.toNat / 65536 ≠ 0x2100 ∧ w.toNat / 524288 ≠ 0x600 ∧
    w.toNat / 65536 ≠ 0x3100 ∧ w.toNat / 65536 ≠ 0x3200 ∧ w.toNat ≠ 0x40000000 ∧ w.toNat ≠ 0x41000000 ∧
    w.toNat ≠ 0x42000000 := by
  rw [decode_error_iff, matchRow_opcodeRows]
  simp only [ite_some_eq_none, and_true, ne_eq]

end Sys2Proof
end

