-- ==== Sys2Proof/Laws/Euclid.lean ====
section
/-! SUPPORT. What the loop of ModInverse keeps: the coefficients are bounded by the modulus and stay Bézout coefficients
of the running pair (spec/40_modular_arithmetic.md R105). -/

namespace Sys2Proof.Machine

/-- With the second number as its bound the loop ends on its own, at a coefficient `x` with `|x| <= B` and
`x * A ≡ 1 (mod B)`. The coefficients of the running pair have opposite signs `σ`, `-σ` and magnitudes `u`, `v`. -/
theorem euclidLoop_spec {A B : Nat} (fuel a b u v : Nat) (σ : Int) (hσ : σ = 1 ∨ σ = -1) (ha : 1 ≤ a)
    (hgcd : Nat.gcd a b = 1) (hfuel : b ≤ fuel) (hsum : u * a + v * b = B) (hv : v ≤ B)
    (hx1 : (B : Int) ∣ -σ * v * A - a) (hx0 : (B : Int) ∣ σ * u * A - b) :
    |euclidLoop fuel a b (σ * u) (-σ * v)| ≤ B ∧ (B : Int) ∣ euclidLoop fuel a b (σ * u) (-σ * v) * A - 1 := by
  have habs : |(-σ * v : Int)| = v := by rcases hσ with rfl | rfl <;> simp
  induction fuel generalizing a b u v σ with
  | zero =>
    have hb : b = 0 := by omega
    subst hb
    rw [Nat.gcd_zero_right] at hgcd
    subst hgcd
    exact ⟨by simpa only [euclidLoop, habs] using Int.ofNat_le.2 hv, by simpa only [euclidLoop, Nat.cast_one] using hx1⟩
  | succ f ih =>
    simp only [euclidLoop]
    split
    · have h1 : a = 1 := by omega
      subst h1
      exact ⟨by rw [habs]; exact Int.ofNat_le.2 hv, by simpa using hx1⟩
    · have hb : 1 ≤ b := by
        rcases Nat.eq_zero_or_pos b with rfl | h
        · rw [Nat.gcd_zero_right] at hgcd; omega
        · exact h
      have hdiv : b * (a / b) + a % b = a := Nat.div_add_mod a b
      have hmod : a % b < b := Nat.mod_lt _ hb
      have hnew0 : -σ * v - (a / b : Nat) * (σ * u) = -σ * ((v + a / b * u : Nat) : Int) := by push_cast; ring
      have hnew1 : σ * (u : Int) = - -σ * (u : Int) := by ring
      have hu : u ≤ B := by nlinarith
      have hsigma : -σ = 1 ∨ -σ = -1 := by rcases hσ with rfl | rfl <;> simp
      rw [hnew0, hnew1]
      refine ih b (a % b) (v + a / b * u) u (-σ) hsigma hb ?_ (by omega) ?_ hu ?_ ?_ ?_
      · rw [Nat.gcd_comm, ← Nat.gcd_rec, Nat.gcd_comm]; exact hgcd
      · calc (v + a / b * u) * b + u * (a % b) = u * (b * (a / b) + a % b) + v * b := by ring
          _ = B := by rw [hdiv, hsum]
      · simpa using hx0
      · have hmodInt : ((a % b : Nat) : Int) = a - (a / b : Nat) * b := by
          have : (b * (a / b) + a % b : Int) = a := by exact_mod_cast hdiv
          push_cast; linarith
        have := Int.dvd_sub hx1 (Dvd.dvd.mul_left hx0 ((a / b : Nat) : Int))
        rw [hmodInt]
        convert this using 1
        push_cast; ring
      · rcases hsigma with h | h <;> rw [h] <;> simp

end Sys2Proof.Machine
end

