-- ==== Sys2Proof/Laws/State.lean ====
section
/-! SUPPORT. One lemma per field per update of the state, so that no later proof unfolds a record update. -/

namespace Sys2Proof.Machine

variable (s : State)

@[simp] theorem State.writeMsg_cfg (i : Nat) (v : Word) : (s.writeMsg i v).cfg = s.cfg := rfl
@[simp] theorem State.writeMsg_key (i : Nat) (v : Word) : (s.writeMsg i v).key = s.key := rfl
@[simp] theorem State.writeMsg_kv (i : Nat) (v : Word) : (s.writeMsg i v).kv = s.kv := rfl
@[simp] theorem State.writeMsg_msg (i : Nat) (v : Word) : (s.writeMsg i v).msg = s.msg.write i v := rfl
@[simp] theorem State.writeMsg_len (i : Nat) (v : Word) : (s.writeMsg i v).len = s.len := rfl
@[simp] theorem State.writeMsg_gamma (i : Nat) (v : Word) : (s.writeMsg i v).gamma = s.gamma := rfl
@[simp] theorem State.writeMsg_opx (i : Nat) (v : Word) : (s.writeMsg i v).opx = s.opx := rfl
@[simp] theorem State.writeMsg_res (i : Nat) (v : Word) : (s.writeMsg i v).res = s.res := rfl
@[simp] theorem State.writeMsg_errors (i : Nat) (v : Word) : (s.writeMsg i v).errors = s.errors := rfl
@[simp] theorem State.writeMsg_pending (i : Nat) (v : Word) : (s.writeMsg i v).pending = s.pending := rfl
@[simp] theorem State.writeMsg_returned (i : Nat) (v : Word) : (s.writeMsg i v).returned = s.returned := rfl

@[simp] theorem State.setMsg_cfg (m : Memory) : (s.setMsg m).cfg = s.cfg := rfl
@[simp] theorem State.setMsg_key (m : Memory) : (s.setMsg m).key = s.key := rfl
@[simp] theorem State.setMsg_kv (m : Memory) : (s.setMsg m).kv = s.kv := rfl
@[simp] theorem State.setMsg_msg (m : Memory) : (s.setMsg m).msg = m := rfl
@[simp] theorem State.setMsg_len (m : Memory) : (s.setMsg m).len = s.len := rfl
@[simp] theorem State.setMsg_gamma (m : Memory) : (s.setMsg m).gamma = s.gamma := rfl
@[simp] theorem State.setMsg_opx (m : Memory) : (s.setMsg m).opx = s.opx := rfl
@[simp] theorem State.setMsg_res (m : Memory) : (s.setMsg m).res = s.res := rfl
@[simp] theorem State.setMsg_errors (m : Memory) : (s.setMsg m).errors = s.errors := rfl
@[simp] theorem State.setMsg_pending (m : Memory) : (s.setMsg m).pending = s.pending := rfl
@[simp] theorem State.setMsg_returned (m : Memory) : (s.setMsg m).returned = s.returned := rfl

@[simp] theorem State.setLen_cfg (n : Nat) : (s.setLen n).cfg = s.cfg := rfl
@[simp] theorem State.setLen_key (n : Nat) : (s.setLen n).key = s.key := rfl
@[simp] theorem State.setLen_kv (n : Nat) : (s.setLen n).kv = s.kv := rfl
@[simp] theorem State.setLen_msg (n : Nat) : (s.setLen n).msg = s.msg := rfl
@[simp] theorem State.setLen_len (n : Nat) : (s.setLen n).len = BitVec.ofNat 32 n := rfl
@[simp] theorem State.setLen_gamma (n : Nat) : (s.setLen n).gamma = s.gamma := rfl
@[simp] theorem State.setLen_opx (n : Nat) : (s.setLen n).opx = s.opx := rfl
@[simp] theorem State.setLen_res (n : Nat) : (s.setLen n).res = s.res := rfl
@[simp] theorem State.setLen_errors (n : Nat) : (s.setLen n).errors = s.errors := rfl
@[simp] theorem State.setLen_pending (n : Nat) : (s.setLen n).pending = s.pending := rfl
@[simp] theorem State.setLen_returned (n : Nat) : (s.setLen n).returned = s.returned := rfl

@[simp] theorem State.setGamma_cfg (v : Word) : (s.setGamma v).cfg = s.cfg := rfl
@[simp] theorem State.setGamma_key (v : Word) : (s.setGamma v).key = s.key := rfl
@[simp] theorem State.setGamma_kv (v : Word) : (s.setGamma v).kv = s.kv := rfl
@[simp] theorem State.setGamma_msg (v : Word) : (s.setGamma v).msg = s.msg := rfl
@[simp] theorem State.setGamma_len (v : Word) : (s.setGamma v).len = s.len := rfl
@[simp] theorem State.setGamma_gamma (v : Word) : (s.setGamma v).gamma = v := rfl
@[simp] theorem State.setGamma_opx (v : Word) : (s.setGamma v).opx = s.opx := rfl
@[simp] theorem State.setGamma_res (v : Word) : (s.setGamma v).res = s.res := rfl
@[simp] theorem State.setGamma_errors (v : Word) : (s.setGamma v).errors = s.errors := rfl
@[simp] theorem State.setGamma_pending (v : Word) : (s.setGamma v).pending = s.pending := rfl
@[simp] theorem State.setGamma_returned (v : Word) : (s.setGamma v).returned = s.returned := rfl

@[simp] theorem State.setOpx_cfg (v : Word) : (s.setOpx v).cfg = s.cfg := rfl
@[simp] theorem State.setOpx_key (v : Word) : (s.setOpx v).key = s.key := rfl
@[simp] theorem State.setOpx_kv (v : Word) : (s.setOpx v).kv = s.kv := rfl
@[simp] theorem State.setOpx_msg (v : Word) : (s.setOpx v).msg = s.msg := rfl
@[simp] theorem State.setOpx_len (v : Word) : (s.setOpx v).len = s.len := rfl
@[simp] theorem State.setOpx_gamma (v : Word) : (s.setOpx v).gamma = s.gamma := rfl
@[simp] theorem State.setOpx_opx (v : Word) : (s.setOpx v).opx = v := rfl
@[simp] theorem State.setOpx_res (v : Word) : (s.setOpx v).res = s.res := rfl
@[simp] theorem State.setOpx_errors (v : Word) : (s.setOpx v).errors = s.errors := rfl
@[simp] theorem State.setOpx_pending (v : Word) : (s.setOpx v).pending = s.pending := rfl
@[simp] theorem State.setOpx_returned (v : Word) : (s.setOpx v).returned = s.returned := rfl

@[simp] theorem State.setRes_cfg (v : Word) : (s.setRes v).cfg = s.cfg := rfl
@[simp] theorem State.setRes_key (v : Word) : (s.setRes v).key = s.key := rfl
@[simp] theorem State.setRes_kv (v : Word) : (s.setRes v).kv = s.kv := rfl
@[simp] theorem State.setRes_msg (v : Word) : (s.setRes v).msg = s.msg := rfl
@[simp] theorem State.setRes_len (v : Word) : (s.setRes v).len = s.len := rfl
@[simp] theorem State.setRes_gamma (v : Word) : (s.setRes v).gamma = s.gamma := rfl
@[simp] theorem State.setRes_opx (v : Word) : (s.setRes v).opx = s.opx := rfl
@[simp] theorem State.setRes_res (v : Word) : (s.setRes v).res = v := rfl
@[simp] theorem State.setRes_errors (v : Word) : (s.setRes v).errors = s.errors := rfl
@[simp] theorem State.setRes_pending (v : Word) : (s.setRes v).pending = s.pending := rfl
@[simp] theorem State.setRes_returned (v : Word) : (s.setRes v).returned = s.returned := rfl

@[simp] theorem State.raise_cfg (e : ErrorKind) : (s.raise e).cfg = s.cfg := rfl
@[simp] theorem State.raise_key (e : ErrorKind) : (s.raise e).key = s.key := rfl
@[simp] theorem State.raise_kv (e : ErrorKind) : (s.raise e).kv = s.kv := rfl
@[simp] theorem State.raise_msg (e : ErrorKind) : (s.raise e).msg = s.msg := rfl
@[simp] theorem State.raise_len (e : ErrorKind) : (s.raise e).len = s.len := rfl
@[simp] theorem State.raise_gamma (e : ErrorKind) : (s.raise e).gamma = s.gamma := rfl
@[simp] theorem State.raise_opx (e : ErrorKind) : (s.raise e).opx = s.opx := rfl
@[simp] theorem State.raise_res (e : ErrorKind) : (s.raise e).res = s.res := rfl
@[simp] theorem State.raise_errors (e : ErrorKind) : (s.raise e).errors = s.errors ||| e.mask := rfl
@[simp] theorem State.raise_pending (e : ErrorKind) : (s.raise e).pending = s.pending := rfl
@[simp] theorem State.raise_returned (e : ErrorKind) : (s.raise e).returned = s.returned := rfl

@[simp] theorem State.resetCore_cfg : (s.resetCore).cfg = s.cfg := rfl
@[simp] theorem State.resetCore_key : (s.resetCore).key = ⟨0#32, 0#32, 0#32, 0#32⟩ := rfl
@[simp] theorem State.resetCore_kv : (s.resetCore).kv = 0#4 := rfl
@[simp] theorem State.resetCore_msg : (s.resetCore).msg = [] := rfl
@[simp] theorem State.resetCore_len : (s.resetCore).len = 0#32 := rfl
@[simp] theorem State.resetCore_gamma : (s.resetCore).gamma = 0#32 := rfl
@[simp] theorem State.resetCore_opx : (s.resetCore).opx = 0#32 := rfl
@[simp] theorem State.resetCore_res : (s.resetCore).res = 0#32 := rfl
@[simp] theorem State.resetCore_errors : (s.resetCore).errors = 0#6 := rfl
@[simp] theorem State.resetCore_pending : (s.resetCore).pending = s.pending := rfl
@[simp] theorem State.resetCore_returned : (s.resetCore).returned = s.returned := rfl

@[simp] theorem State.respond_cfg (v : Word) : (s.respond v).cfg = s.cfg := rfl
@[simp] theorem State.respond_key (v : Word) : (s.respond v).key = s.key := rfl
@[simp] theorem State.respond_kv (v : Word) : (s.respond v).kv = s.kv := rfl
@[simp] theorem State.respond_msg (v : Word) : (s.respond v).msg = s.msg := rfl
@[simp] theorem State.respond_len (v : Word) : (s.respond v).len = s.len := rfl
@[simp] theorem State.respond_gamma (v : Word) : (s.respond v).gamma = s.gamma := rfl
@[simp] theorem State.respond_opx (v : Word) : (s.respond v).opx = s.opx := rfl
@[simp] theorem State.respond_res (v : Word) : (s.respond v).res = s.res := rfl
@[simp] theorem State.respond_errors (v : Word) : (s.respond v).errors = s.errors := rfl
@[simp] theorem State.respond_pending (v : Word) : (s.respond v).pending = s.pending := rfl
@[simp] theorem State.respond_returned (v : Word) : (s.respond v).returned = s.returned ++ [v] := rfl

@[simp] theorem State.writeBlock_cfg (b : Nat) (y : Block) : (s.writeBlock b y).cfg = s.cfg := rfl
@[simp] theorem State.writeBlock_key (b : Nat) (y : Block) : (s.writeBlock b y).key = s.key := rfl
@[simp] theorem State.writeBlock_kv (b : Nat) (y : Block) : (s.writeBlock b y).kv = s.kv := rfl
@[simp] theorem State.writeBlock_msg (b : Nat) (y : Block) : (s.writeBlock b y).msg = s.msg.writeBlock b y := rfl
@[simp] theorem State.writeBlock_len (b : Nat) (y : Block) : (s.writeBlock b y).len = s.len := rfl
@[simp] theorem State.writeBlock_gamma (b : Nat) (y : Block) : (s.writeBlock b y).gamma = s.gamma := rfl
@[simp] theorem State.writeBlock_opx (b : Nat) (y : Block) : (s.writeBlock b y).opx = s.opx := rfl
@[simp] theorem State.writeBlock_res (b : Nat) (y : Block) : (s.writeBlock b y).res = s.res := rfl
@[simp] theorem State.writeBlock_errors (b : Nat) (y : Block) : (s.writeBlock b y).errors = s.errors := rfl
@[simp] theorem State.writeBlock_pending (b : Nat) (y : Block) : (s.writeBlock b y).pending = s.pending := rfl
@[simp] theorem State.writeBlock_returned (b : Nat) (y : Block) : (s.writeBlock b y).returned = s.returned := rfl

@[simp] theorem State.writeKey_cfg (i : Fin 4) (v : Word) : (s.writeKey i v).cfg = s.cfg := rfl
@[simp] theorem State.writeKey_key (i : Fin 4) (v : Word) : (s.writeKey i v).key = s.key.set i v := rfl
@[simp] theorem State.writeKey_kv (i : Fin 4) (v : Word) : (s.writeKey i v).kv = s.kv ||| (1#4 <<< i.val) := rfl
@[simp] theorem State.writeKey_msg (i : Fin 4) (v : Word) : (s.writeKey i v).msg = s.msg := rfl
@[simp] theorem State.writeKey_len (i : Fin 4) (v : Word) : (s.writeKey i v).len = s.len := rfl
@[simp] theorem State.writeKey_gamma (i : Fin 4) (v : Word) : (s.writeKey i v).gamma = s.gamma := rfl
@[simp] theorem State.writeKey_opx (i : Fin 4) (v : Word) : (s.writeKey i v).opx = s.opx := rfl
@[simp] theorem State.writeKey_res (i : Fin 4) (v : Word) : (s.writeKey i v).res = s.res := rfl
@[simp] theorem State.writeKey_errors (i : Fin 4) (v : Word) : (s.writeKey i v).errors = s.errors := rfl
@[simp] theorem State.writeKey_pending (i : Fin 4) (v : Word) : (s.writeKey i v).pending = s.pending := rfl
@[simp] theorem State.writeKey_returned (i : Fin 4) (v : Word) : (s.writeKey i v).returned = s.returned := rfl

@[simp] theorem State.padMessage_cfg : (s.padMessage).cfg = s.cfg := rfl
@[simp] theorem State.padMessage_key : (s.padMessage).key = s.key := rfl
@[simp] theorem State.padMessage_kv : (s.padMessage).kv = s.kv := rfl
@[simp] theorem State.padMessage_msg : (s.padMessage).msg = s.msg.zeroFill s.len.toNat (padAmount s.len.toNat) := rfl
@[simp] theorem State.padMessage_len : (s.padMessage).len = BitVec.ofNat 32 (s.len.toNat + padAmount s.len.toNat) := rfl
@[simp] theorem State.padMessage_gamma : (s.padMessage).gamma = s.gamma := rfl
@[simp] theorem State.padMessage_opx : (s.padMessage).opx = s.opx := rfl
@[simp] theorem State.padMessage_res : (s.padMessage).res = s.res := rfl
@[simp] theorem State.padMessage_errors : (s.padMessage).errors = s.errors := rfl
@[simp] theorem State.padMessage_pending : (s.padMessage).pending = s.pending := rfl
@[simp] theorem State.padMessage_returned : (s.padMessage).returned = s.returned := rfl

@[simp] theorem State.mapMessage_cfg (f : Block → Block) : (s.mapMessage f).cfg = s.cfg := rfl
@[simp] theorem State.mapMessage_key (f : Block → Block) : (s.mapMessage f).key = s.key := rfl
@[simp] theorem State.mapMessage_kv (f : Block → Block) : (s.mapMessage f).kv = s.kv := rfl
@[simp] theorem State.mapMessage_msg (f : Block → Block) : (s.mapMessage f).msg = s.msg.mapBlocks f (s.len.toNat / 4) := rfl
@[simp] theorem State.mapMessage_len (f : Block → Block) : (s.mapMessage f).len = s.len := rfl
@[simp] theorem State.mapMessage_gamma (f : Block → Block) : (s.mapMessage f).gamma = s.gamma := rfl
@[simp] theorem State.mapMessage_opx (f : Block → Block) : (s.mapMessage f).opx = s.opx := rfl
@[simp] theorem State.mapMessage_res (f : Block → Block) : (s.mapMessage f).res = s.res := rfl
@[simp] theorem State.mapMessage_errors (f : Block → Block) : (s.mapMessage f).errors = s.errors := rfl
@[simp] theorem State.mapMessage_pending (f : Block → Block) : (s.mapMessage f).pending = s.pending := rfl
@[simp] theorem State.mapMessage_returned (f : Block → Block) : (s.mapMessage f).returned = s.returned := rfl

@[simp] theorem State.withFetchWord_cfg (nbits w : Nat) : (s.withFetchWord nbits w).cfg = s.cfg := rfl
@[simp] theorem State.withFetchWord_key (nbits w : Nat) : (s.withFetchWord nbits w).key = s.key := rfl
@[simp] theorem State.withFetchWord_kv (nbits w : Nat) : (s.withFetchWord nbits w).kv = s.kv := rfl
@[simp] theorem State.withFetchWord_msg (nbits w : Nat) : (s.withFetchWord nbits w).msg = s.msg := rfl
@[simp] theorem State.withFetchWord_len (nbits w : Nat) : (s.withFetchWord nbits w).len = s.len := rfl
@[simp] theorem State.withFetchWord_gamma (nbits w : Nat) : (s.withFetchWord nbits w).gamma = s.gamma := rfl
@[simp] theorem State.withFetchWord_opx (nbits w : Nat) : (s.withFetchWord nbits w).opx = s.opx := rfl
@[simp] theorem State.withFetchWord_res (nbits w : Nat) : (s.withFetchWord nbits w).res = s.res := rfl
@[simp] theorem State.withFetchWord_errors (nbits w : Nat) : (s.withFetchWord nbits w).errors = s.errors := rfl
@[simp] theorem State.withFetchWord_pending (nbits w : Nat) : (s.withFetchWord nbits w).pending = .write commandAddress (tableWord nbits w) :: s.pending := rfl
@[simp] theorem State.withFetchWord_returned (nbits w : Nat) : (s.withFetchWord nbits w).returned = s.returned := rfl

end Sys2Proof.Machine
end

