-- ==== Sys2Proof/Laws/Memory.lean ====
section
/-! SUPPORT. The laws of the message buffer: read after write, every operation keeps the canonical form, and buffers that
read alike are equal. -/

namespace Sys2Proof.Machine

namespace Memory

/-! ### The canonical form -/

theorem wf_nil : Memory.wf [] := by simp [Memory.wf]

theorem wf_tail {p : Nat × Word} {m : Memory} (h : Memory.wf (p :: m)) : Memory.wf m :=
  ⟨(List.pairwise_cons.1 h.1).2, fun q hq => h.2 q (List.mem_cons_of_mem _ hq)⟩

theorem wf_head_lt {p : Nat × Word} {m : Memory} (h : Memory.wf (p :: m)) : ∀ q ∈ m, p.1 < q.1 :=
  (List.pairwise_cons.1 h.1).1

theorem wf_cons {i : Nat} {v : Word} {m : Memory} (hv : v ≠ 0#32) (hm : Memory.wf m) (hi : ∀ q ∈ m, i < q.1) :
    Memory.wf ((i, v) :: m) :=
  ⟨List.pairwise_cons.2 ⟨hi, hm.1⟩, by
    intro q hq
    rcases List.mem_cons.1 hq with rfl | hq
    · exact hv
    · exact hm.2 q hq⟩

theorem wf_cell {i : Nat} {v : Word} {m : Memory} (hm : Memory.wf m) (hi : ∀ q ∈ m, i < q.1) :
    Memory.wf (Memory.cell i v m) := by
  unfold Memory.cell
  split
  · exact hm
  · exact wf_cons ‹_› hm hi

theorem mem_cell {i : Nat} {v : Word} {m : Memory} {q : Nat × Word} (h : q ∈ Memory.cell i v m) :
    q = (i, v) ∨ q ∈ m := by
  unfold Memory.cell at h
  split at h
  · exact .inr h
  · exact List.mem_cons.1 h

theorem mem_write {m : Memory} {i : Nat} {v : Word} {q : Nat × Word} (h : q ∈ m.write i v) :
    q = (i, v) ∨ q ∈ m := by
  induction m with
  | nil => exact mem_cell h
  | cons p rest ih =>
    obtain ⟨a, w⟩ := p
    simp only [Memory.write] at h
    split at h
    · exact mem_cell h
    · split at h
      · exact (mem_cell h).imp_right (List.mem_cons_of_mem _)
      · rcases List.mem_cons.1 h with rfl | h
        · exact .inr (List.mem_cons_self ..)
        · exact (ih h).imp_right (List.mem_cons_of_mem _)

/-- Writing one Word keeps the canonical form. -/
theorem wf_write {m : Memory} (hm : m.wf) (i : Nat) (v : Word) : (m.write i v).wf := by
  induction m with
  | nil => exact wf_cell wf_nil (by simp)
  | cons p rest ih =>
    obtain ⟨a, w⟩ := p
    simp only [Memory.write]
    have hlt := wf_head_lt hm
    split
    · rename_i hia
      refine wf_cell hm ?_
      intro q hq
      rcases List.mem_cons.1 hq with rfl | hq
      · exact hia
      · exact lt_trans hia (hlt q hq)
    · split
      · subst_vars
        exact wf_cell (wf_tail hm) hlt
      · refine wf_cons (hm.2 _ (List.mem_cons_self ..)) (ih (wf_tail hm)) ?_
        intro q hq
        rcases mem_write hq with rfl | hq
        · simp only; omega
        · exact hlt q hq

/-- Writing inside a bound stays inside it. -/
theorem below_write {m : Memory} {n i : Nat} (hm : m.below n) (hi : i < n) (v : Word) : (m.write i v).below n := by
  intro q hq
  rcases mem_write hq with rfl | hq
  · exact hi
  · exact hm q hq

/-! ### Reading -/

@[simp] theorem read_nil (i : Nat) : Memory.read [] i = 0#32 := rfl

theorem read_of_lt {m : Memory} {i : Nat} (h : ∀ q ∈ m, i < q.1) : m.read i = 0#32 := by
  induction m with
  | nil => rfl
  | cons p rest ih =>
    have hp := h p (List.mem_cons_self ..)
    simp only [Memory.read]
    rw [if_neg (by omega)]
    exact ih fun q hq => h q (List.mem_cons_of_mem _ hq)

/-- An index at or beyond every listed one reads as 0. -/
theorem read_of_below {m : Memory} {n i : Nat} (hm : m.below n) (hi : n ≤ i) : m.read i = 0#32 := by
  induction m with
  | nil => rfl
  | cons p rest ih =>
    have hp := hm p (List.mem_cons_self ..)
    simp only [Memory.read]
    rw [if_neg (by omega)]
    exact ih fun q hq => hm q (List.mem_cons_of_mem _ hq)

theorem read_cell {i j : Nat} {v : Word} {m : Memory} (hi : ∀ q ∈ m, i < q.1) :
    (Memory.cell i v m).read j = if j = i then v else m.read j := by
  unfold Memory.cell
  split
  · split
    · subst_vars; exact read_of_lt hi
    · rfl
  · rfl

/-- Read after write: the Word written at its index, every other Word as before. -/
theorem read_write {m : Memory} (hm : m.wf) (i j : Nat) (v : Word) :
    (m.write i v).read j = if j = i then v else m.read j := by
  induction m with
  | nil => exact read_cell (by simp)
  | cons p rest ih =>
    obtain ⟨a, w⟩ := p
    have hlt := wf_head_lt hm
    simp only [Memory.write]
    split
    · rename_i hia
      refine read_cell ?_
      intro q hq
      rcases List.mem_cons.1 hq with rfl | hq
      · exact hia
      · exact lt_trans hia (hlt q hq)
    · split
      · subst_vars
        rw [read_cell hlt]
        simp only [Memory.read]
        split <;> rfl
      · simp only [Memory.read]
        rw [ih (wf_tail hm)]
        by_cases hja : j = a
        · rw [if_pos hja, if_neg (by omega), if_pos hja]
        · simp only [if_neg hja]

/-- Two buffers in canonical form that read alike are the same list. -/
theorem ext {m m' : Memory} (hm : m.wf) (hm' : m'.wf) (h : ∀ i, m.read i = m'.read i) : m = m' := by
  induction m generalizing m' with
  | nil =>
    cases m' with
    | nil => rfl
    | cons p rest =>
      have h0 := h p.1
      simp only [Memory.read, if_true] at h0
      exact absurd h0.symm (hm'.2 p (List.mem_cons_self ..))
  | cons p rest ih =>
    cases m' with
    | nil =>
      have h0 := h p.1
      simp only [Memory.read, if_true] at h0
      exact absurd h0 (hm.2 p (List.mem_cons_self ..))
    | cons p' rest' =>
      obtain ⟨a, w⟩ := p
      obtain ⟨a', w'⟩ := p'
      have hlt := wf_head_lt hm
      have hlt' := wf_head_lt hm'
      have ha : a = a' := by
        rcases lt_trichotomy a a' with h1 | h1 | h1
        · have h0 := h a
          rw [read_of_lt (m := (a', w') :: rest')] at h0
          · simp only [Memory.read, if_true] at h0
            exact absurd h0 (hm.2 _ (List.mem_cons_self ..))
          · intro q hq
            rcases List.mem_cons.1 hq with rfl | hq
            · exact h1
            · exact lt_trans h1 (hlt' q hq)
        · exact h1
        · have h0 := h a'
          rw [read_of_lt (m := (a, w) :: rest)] at h0
          · simp only [Memory.read, if_true] at h0
            exact absurd h0.symm (hm'.2 _ (List.mem_cons_self ..))
          · intro q hq
            rcases List.mem_cons.1 hq with rfl | hq
            · exact h1
            · exact lt_trans h1 (hlt q hq)
      subst ha
      have hw : w = w' := by
        have h0 := h a
        simpa only [Memory.read, if_true] using h0
      subst hw
      congr 1
      refine ih (wf_tail hm) (wf_tail hm') fun i => ?_
      by_cases hi : i = a
      · subst hi
        rw [read_of_lt hlt, read_of_lt hlt']
      · have h0 := h i
        simpa only [Memory.read, if_neg hi] using h0

/-! ### Runs of zeros -/

theorem wf_zeroFill {m : Memory} (hm : m.wf) (start count : Nat) : (m.zeroFill start count).wf := by
  induction count with
  | zero => exact hm
  | succ n ih => exact wf_write ih _ _

theorem below_zeroFill {m : Memory} {n : Nat} (hm : m.below n) {start count : Nat} (h : start + count ≤ n) :
    (m.zeroFill start count).below n := by
  induction count with
  | zero => exact hm
  | succ k ih => exact below_write (ih (by omega)) (by omega) _

/-- Filling with zeros zeroes exactly the Words named. -/
theorem read_zeroFill {m : Memory} (hm : m.wf) (start count i : Nat) :
    (m.zeroFill start count).read i = if start ≤ i ∧ i < start + count then 0#32 else m.read i := by
  induction count with
  | zero =>
    rw [if_neg (by omega)]
    rfl
  | succ k ih =>
    simp only [Memory.zeroFill]
    rw [read_write (wf_zeroFill hm _ _), ih]
    by_cases h1 : i = start + k
    · rw [if_pos h1, if_pos (by omega)]
    · rw [if_neg h1]
      by_cases h2 : start ≤ i ∧ i < start + k
      · rw [if_pos h2, if_pos (by omega)]
      · rw [if_neg h2, if_neg (by omega)]

/-! ### Blocks -/

theorem wf_writeBlock {m : Memory} (hm : m.wf) (b : Nat) (y : Block) : (m.writeBlock b y).wf :=
  wf_write (wf_write (wf_write (wf_write hm _ _) _ _) _ _) _ _

theorem below_writeBlock {m : Memory} {n b : Nat} (hm : m.below n) (hb : 4 * b + 3 < n) (y : Block) :
    (m.writeBlock b y).below n :=
  below_write (below_write (below_write (below_write hm (by omega) _) (by omega) _) (by omega) _) (by omega) _

/-- Writing a block writes its four Words and no other. -/
theorem read_writeBlock {m : Memory} (hm : m.wf) (b : Nat) (y : Block) (i : Nat) :
    (m.writeBlock b y).read i = if i / 4 = b then y.get (Fin.ofNat 4 i) else m.read i := by
  unfold Memory.writeBlock
  rw [read_write (wf_write (wf_write (wf_write hm _ _) _ _) _ _), read_write (wf_write (wf_write hm _ _) _ _),
    read_write (wf_write hm _ _), read_write hm]
  by_cases h : i / 4 = b
  · rw [if_pos h]
    have h4 : i = 4 * b ∨ i = 4 * b + 1 ∨ i = 4 * b + 2 ∨ i = 4 * b + 3 := by omega
    have hj : ∀ k, k < 4 → i = 4 * b + k → Fin.ofNat 4 i = Fin.ofNat 4 k := by
      intro k hk hi
      apply Fin.ext
      simp only [Fin.ofNat]
      omega
    rcases h4 with h1 | h1 | h1 | h1
    · rw [if_neg (by omega), if_neg (by omega), if_neg (by omega), if_pos h1, hj 0 (by omega) h1]; rfl
    · rw [if_neg (by omega), if_neg (by omega), if_pos h1, hj 1 (by omega) h1]; rfl
    · rw [if_neg (by omega), if_pos h1, hj 2 (by omega) h1]; rfl
    · rw [if_pos h1, hj 3 (by omega) h1]; rfl
  · rw [if_neg h, if_neg (by omega), if_neg (by omega), if_neg (by omega), if_neg (by omega)]

theorem readBlock_congr {m m' : Memory} {b : Nat} (h : ∀ i, i / 4 = b → m.read i = m'.read i) :
    m.readBlock b = m'.readBlock b := by
  unfold Memory.readBlock
  rw [h (4 * b) (by omega), h (4 * b + 1) (by omega), h (4 * b + 2) (by omega), h (4 * b + 3) (by omega)]

/-- A Word of a block is the Word of the buffer at its index. -/
theorem get_readBlock (m : Memory) (i : Nat) : (m.readBlock (i / 4)).get (Fin.ofNat 4 i) = m.read i := by
  have hj : ∀ k, k < 4 → i % 4 = k → Fin.ofNat 4 i = Fin.ofNat 4 k := by
    intro k hk hi
    apply Fin.ext
    simp only [Fin.ofNat]
    omega
  have h4 : i % 4 = 0 ∨ i % 4 = 1 ∨ i % 4 = 2 ∨ i % 4 = 3 := by omega
  rcases h4 with h | h | h | h
  · rw [hj 0 (by omega) h]
    change m.read (4 * (i / 4)) = _
    congr 1; omega
  · rw [hj 1 (by omega) h]
    change m.read (4 * (i / 4) + 1) = _
    congr 1; omega
  · rw [hj 2 (by omega) h]
    change m.read (4 * (i / 4) + 2) = _
    congr 1; omega
  · rw [hj 3 (by omega) h]
    change m.read (4 * (i / 4) + 3) = _
    congr 1; omega

@[simp] theorem readBlock_writeBlock {m : Memory} (hm : m.wf) (b : Nat) (y : Block) :
    (m.writeBlock b y).readBlock b = y := by
  have h : ∀ k, k < 4 → (m.writeBlock b y).read (4 * b + k) = y.get (Fin.ofNat 4 k) := by
    intro k hk
    rw [read_writeBlock hm, if_pos (by omega)]
    congr 1
    apply Fin.ext
    simp only [Fin.ofNat]
    omega
  unfold Memory.readBlock
  rw [show 4 * b = 4 * b + 0 from rfl, h 0 (by omega), h 1 (by omega), h 2 (by omega), h 3 (by omega)]
  rfl

theorem wf_mapBlocks {m : Memory} (hm : m.wf) (f : Block → Block) (n : Nat) : (m.mapBlocks f n).wf := by
  induction n with
  | zero => exact hm
  | succ k ih => exact wf_writeBlock ih _ _

theorem below_mapBlocks {m : Memory} {n : Nat} (hm : m.below n) (f : Block → Block) {k : Nat} (hk : 4 * k ≤ n) :
    (m.mapBlocks f k).below n := by
  induction k with
  | zero => exact hm
  | succ k ih => exact below_writeBlock (ih (by omega)) (by omega) _

/-- Replacing the first `n` blocks replaces each from its own old value, and no other Word. -/
theorem read_mapBlocks {m : Memory} (hm : m.wf) (f : Block → Block) (n i : Nat) :
    (m.mapBlocks f n).read i = if i / 4 < n then (f (m.readBlock (i / 4))).get (Fin.ofNat 4 i) else m.read i := by
  induction n generalizing i with
  | zero => simp [Memory.mapBlocks]
  | succ k ih =>
    simp only [Memory.mapBlocks]
    rw [read_writeBlock (wf_mapBlocks hm f k)]
    by_cases h : i / 4 = k
    · rw [if_pos h, if_pos (by omega), h]
      congr 2
      refine readBlock_congr fun j hj => ?_
      rw [ih, if_neg (by omega)]
    · rw [if_neg h, ih]
      by_cases h2 : i / 4 < k
      · rw [if_pos h2, if_pos (by omega)]
      · rw [if_neg h2, if_neg (by omega)]

end Memory

end Sys2Proof.Machine
end

