-- ==== Sys2Proof/Laws/Exec.lean ====
section
/-! SUPPORT. What a command, a transaction and a step can do, said once: the checks as propositions, block writes at the
level of the state, and one inversion lemma each for `exec`, a host write and a step. -/

namespace Sys2Proof.Machine

variable (s : State)

/-! ### The checks -/

theorem State.keyValid_iff : s.keyValid = true ↔ s.kv = 0b1111#4 := by simp [State.keyValid]

theorem State.keyValid_eq_false_iff : s.keyValid = false ↔ s.kv ≠ 0b1111#4 := by simp [State.keyValid]

theorem State.blockOutside_iff (b : Nat) : s.blockOutside b = true ↔ s.cfg.msgWords ≤ 4 * b + 3 := by
  simp [State.blockOutside]

theorem State.blockOutside_eq_false_iff (b : Nat) : s.blockOutside b = false ↔ 4 * b + 3 < s.cfg.msgWords := by
  simp [State.blockOutside]

theorem ErrorKind.code_lt (e : ErrorKind) : e.code < 6 := by cases e <;> decide

theorem ErrorKind.getLsbD_mask (e : ErrorKind) (i : Nat) : e.mask.getLsbD i = decide (i = e.code) := by
  by_cases h : i < 6
  · revert h; cases e <;> revert i <;> decide
  · rw [BitVec.getLsbD_of_ge _ _ (by omega)]
    have := e.code_lt
    exact (decide_eq_false (by omega)).symm

theorem State.raise_raise (e : ErrorKind) : (s.raise e).raise e = s.raise e := by
  simp [State.raise, BitVec.or_assoc]

/-! ### Block writes -/

/-- A state that differs from another in its buffer at most, and not in its buffer, is that state. -/
theorem State.eq_of_msg {s t : State} (h : t = { s with msg := t.msg }) (hm : t.msg = s.msg) : t = s := by
  rw [h, hm]

variable {s}

theorem State.readBlock_writeBlock (hwf : s.msg.wf) (b : Nat) (y : Block) : (s.writeBlock b y).readBlock b = y :=
  Memory.readBlock_writeBlock hwf b y

theorem State.writeBlock_readBlock (hwf : s.msg.wf) (b : Nat) : s.writeBlock b (s.readBlock b) = s := by
  refine State.eq_of_msg rfl (Memory.ext (Memory.wf_writeBlock hwf _ _) hwf fun i => ?_)
  rw [State.writeBlock_msg, Memory.read_writeBlock hwf]
  split
  · subst b; exact Memory.get_readBlock s.msg i
  · rfl

theorem State.writeBlock_writeBlock (hwf : s.msg.wf) (b : Nat) (x y : Block) :
    (s.writeBlock b x).writeBlock b y = s.writeBlock b y := by
  refine State.eq_of_msg rfl ?_
  refine Memory.ext (Memory.wf_writeBlock (Memory.wf_writeBlock hwf _ _) _ _) (Memory.wf_writeBlock hwf _ _) fun i => ?_
  simp only [State.writeBlock_msg]
  rw [Memory.read_writeBlock (Memory.wf_writeBlock hwf _ _), Memory.read_writeBlock hwf, Memory.read_writeBlock hwf]
  split <;> rfl

theorem State.readMsg_writeBlock (hwf : s.msg.wf) (b : Nat) (y : Block) (i : Nat) :
    (s.writeBlock b y).readMsg i = if i / 4 = b then y.get (Fin.ofNat 4 i) else s.readMsg i :=
  Memory.read_writeBlock hwf b y i

theorem State.readMsg_padMessage (hwf : s.msg.wf) (i : Nat) : s.padMessage.readMsg i =
    if s.len.toNat ≤ i ∧ i < s.len.toNat + padAmount s.len.toNat then 0#32 else s.readMsg i :=
  Memory.read_zeroFill hwf _ _ i

theorem State.readMsg_mapMessage (hwf : s.msg.wf) (f : Block → Block) (i : Nat) : (s.mapMessage f).readMsg i =
    if i / 4 < s.len.toNat / 4 then (f (s.readBlock (i / 4))).get (Fin.ofNat 4 i) else s.readMsg i :=
  Memory.read_mapBlocks hwf f _ i

variable (s)

/-! ### Commands -/

/-! The commands with checks, by the outcome of their checks. -/

theorem exec_xfrm_outside {b : Nat} (h : s.cfg.msgWords ≤ 4 * b + 3) : exec (.xfrm b) s = .next (s.raise .range) := by
  simp only [exec, execXfrm, (s.blockOutside_iff b).2 h, if_true]

theorem exec_xfrm_inside {b : Nat} (h : 4 * b + 3 < s.cfg.msgWords) :
    exec (.xfrm b) s = .next (s.writeBlock b (transform s.cfg (s.readBlock b))) := by
  simp only [exec, execXfrm, (s.blockOutside_eq_false_iff b).2 h, Bool.false_eq_true, if_false]

theorem exec_ixfrm_outside {b : Nat} (h : s.cfg.msgWords ≤ 4 * b + 3) : exec (.ixfrm b) s = .next (s.raise .range) := by
  simp only [exec, execIxfrm, (s.blockOutside_iff b).2 h, if_true]

theorem exec_ixfrm_inside {b : Nat} (h : 4 * b + 3 < s.cfg.msgWords) :
    exec (.ixfrm b) s = .next (s.writeBlock b (inverseTransform s.cfg (s.readBlock b))) := by
  simp only [exec, execIxfrm, (s.blockOutside_eq_false_iff b).2 h, Bool.false_eq_true, if_false]

theorem exec_kxor_outside {b r : Nat} (h : 5 < r ∨ s.cfg.msgWords ≤ 4 * b + 3) :
    exec (.kxor b r) s = .next (s.raise .range) := by
  by_cases hr : 5 < r
  · simp only [exec, execKxor, gt_iff_lt, hr, if_true]
  · simp only [exec, execKxor, gt_iff_lt, hr, if_false, (s.blockOutside_iff b).2 (h.resolve_left hr), if_true]

theorem exec_kxor_noKey {b r : Nat} (hr : r ≤ 5) (h : 4 * b + 3 < s.cfg.msgWords) (hk : s.kv ≠ 0b1111#4) :
    exec (.kxor b r) s = .next (s.raise .key) := by
  simp only [exec, execKxor, gt_iff_lt, Nat.not_lt.2 hr, if_false, (s.blockOutside_eq_false_iff b).2 h,
    s.keyValid_eq_false_iff.2 hk, Bool.false_eq_true, Bool.not_false, if_true]

theorem exec_kxor_inside {b r : Nat} (hr : r ≤ 5) (h : 4 * b + 3 < s.cfg.msgWords) (hk : s.kv = 0b1111#4) :
    exec (.kxor b r) s = .next (s.writeBlock b (keyMix (s.readBlock b) s.key r)) := by
  simp only [exec, execKxor, gt_iff_lt, Nat.not_lt.2 hr, if_false, (s.blockOutside_eq_false_iff b).2 h,
    s.keyValid_iff.2 hk, Bool.false_eq_true, Bool.not_true]

theorem exec_encb_outside {b : Nat} (h : s.cfg.msgWords ≤ 4 * b + 3) : exec (.encb b) s = .next (s.raise .range) := by
  simp only [exec, execEncb, (s.blockOutside_iff b).2 h, if_true]

theorem exec_encb_noKey {b : Nat} (h : 4 * b + 3 < s.cfg.msgWords) (hk : s.kv ≠ 0b1111#4) :
    exec (.encb b) s = .next (s.raise .key) := by
  simp only [exec, execEncb, (s.blockOutside_eq_false_iff b).2 h, s.keyValid_eq_false_iff.2 hk, Bool.false_eq_true,
    if_false, Bool.not_false, if_true]

theorem exec_encb_inside {b : Nat} (h : 4 * b + 3 < s.cfg.msgWords) (hk : s.kv = 0b1111#4) :
    exec (.encb b) s = .next (s.writeBlock b (encryptBlock s.cfg s.key (s.readBlock b))) := by
  simp only [exec, execEncb, (s.blockOutside_eq_false_iff b).2 h, s.keyValid_iff.2 hk, Bool.false_eq_true, if_false,
    Bool.not_true]

theorem exec_decb_outside {b : Nat} (h : s.cfg.msgWords ≤ 4 * b + 3) : exec (.decb b) s = .next (s.raise .range) := by
  simp only [exec, execDecb, (s.blockOutside_iff b).2 h, if_true]

theorem exec_decb_noKey {b : Nat} (h : 4 * b + 3 < s.cfg.msgWords) (hk : s.kv ≠ 0b1111#4) :
    exec (.decb b) s = .next (s.raise .key) := by
  simp only [exec, execDecb, (s.blockOutside_eq_false_iff b).2 h, s.keyValid_eq_false_iff.2 hk, Bool.false_eq_true,
    if_false, Bool.not_false, if_true]

theorem exec_decb_inside {b : Nat} (h : 4 * b + 3 < s.cfg.msgWords) (hk : s.kv = 0b1111#4) :
    exec (.decb b) s = .next (s.writeBlock b (decryptBlock s.cfg s.key (s.readBlock b))) := by
  simp only [exec, execDecb, (s.blockOutside_eq_false_iff b).2 h, s.keyValid_iff.2 hk, Bool.false_eq_true, if_false,
    Bool.not_true]

theorem exec_enc_noKey (hk : s.kv ≠ 0b1111#4) : exec .enc s = .next (s.raise .key) := by
  simp only [exec, execEnc, s.keyValid_eq_false_iff.2 hk, Bool.not_false, if_true]

theorem exec_enc_key (hk : s.kv = 0b1111#4) :
    exec .enc s = .next (s.padMessage.mapMessage (encryptBlock s.cfg s.key)) := by
  simp only [exec, execEnc, s.keyValid_iff.2 hk, Bool.not_true, Bool.false_eq_true, if_false]

theorem exec_dec_noKey (hk : s.kv ≠ 0b1111#4) : exec .dec s = .next (s.raise .key) := by
  simp only [exec, execDec, s.keyValid_eq_false_iff.2 hk, Bool.not_false, if_true]

theorem exec_dec_misaligned (hk : s.kv = 0b1111#4) (hl : s.len.toNat % 4 ≠ 0) :
    exec .dec s = .next (s.raise .align) := by
  simp only [exec, execDec, s.keyValid_iff.2 hk, Bool.not_true, Bool.false_eq_true, if_false, hl, ne_eq,
    not_false_eq_true, if_true]

theorem exec_dec_key (hk : s.kv = 0b1111#4) (hl : s.len.toNat % 4 = 0) :
    exec .dec s = .next (s.mapMessage (decryptBlock s.cfg s.key)) := by
  simp only [exec, execDec, s.keyValid_iff.2 hk, Bool.not_true, Bool.false_eq_true, if_false, hl, ne_eq, not_true_eq_false]

/-- Everything a command can do: leave the state, reset it, write `RES`, raise an error, write one block inside the buffer,
or replace the Message, padded first or not. -/
theorem exec_cases {i : Instr} {t : State} (h : exec i s = .next t) :
    t = s ∨ (i = .srst ∧ t = s.resetCore) ∨ (∃ v, t = s.setRes v) ∨ (∃ e, t = s.raise e) ∨
    (∃ b y, 4 * b + 3 < s.cfg.msgWords ∧ t = s.writeBlock b y) ∨ t = s.padMessage ∨
    (∃ f, t = s.padMessage.mapMessage f) ∨ ∃ f, t = s.mapMessage f := by
  cases i with
  | nop => left; cases h; rfl
  | srst => right; left; cases h; exact ⟨rfl, rfl⟩
  | gmul => cases h; right; right; left; exact ⟨_, rfl⟩
  | ginv =>
    simp only [exec, execGinv] at h
    split at h <;> cases h
    · right; right; left; exact ⟨_, rfl⟩
    · right; right; right; left; exact ⟨_, rfl⟩
  | minv =>
    simp only [exec, execMinv] at h
    split at h <;> cases h
    · right; right; left; exact ⟨_, rfl⟩
    · right; right; right; left; exact ⟨_, rfl⟩
  | xfrm b =>
    simp only [exec, execXfrm] at h
    split at h <;> cases h
    · right; right; right; left; exact ⟨_, rfl⟩
    · rename_i hb
      rw [Bool.not_eq_true, State.blockOutside_eq_false_iff] at hb
      right; right; right; right; left; exact ⟨_, _, hb, rfl⟩
  | ixfrm b =>
    simp only [exec, execIxfrm] at h
    split at h <;> cases h
    · right; right; right; left; exact ⟨_, rfl⟩
    · rename_i hb
      rw [Bool.not_eq_true, State.blockOutside_eq_false_iff] at hb
      right; right; right; right; left; exact ⟨_, _, hb, rfl⟩
  | kxor b r =>
    simp only [exec, execKxor] at h
    split at h
    · cases h; right; right; right; left; exact ⟨_, rfl⟩
    split at h
    · cases h; right; right; right; left; exact ⟨_, rfl⟩
    rename_i hb
    rw [Bool.not_eq_true, State.blockOutside_eq_false_iff] at hb
    split at h <;> cases h
    · right; right; right; left; exact ⟨_, rfl⟩
    · right; right; right; right; left; exact ⟨_, _, hb, rfl⟩
  | encb b =>
    simp only [exec, execEncb] at h
    split at h
    · cases h; right; right; right; left; exact ⟨_, rfl⟩
    rename_i hb
    rw [Bool.not_eq_true, State.blockOutside_eq_false_iff] at hb
    split at h <;> cases h
    · right; right; right; left; exact ⟨_, rfl⟩
    · right; right; right; right; left; exact ⟨_, _, hb, rfl⟩
  | decb b =>
    simp only [exec, execDecb] at h
    split at h
    · cases h; right; right; right; left; exact ⟨_, rfl⟩
    rename_i hb
    rw [Bool.not_eq_true, State.blockOutside_eq_false_iff] at hb
    split at h <;> cases h
    · right; right; right; left; exact ⟨_, rfl⟩
    · right; right; right; right; left; exact ⟨_, _, hb, rfl⟩
  | pad => cases h; right; right; right; right; right; left; rfl
  | enc =>
    simp only [exec, execEnc] at h
    split at h <;> cases h
    · right; right; right; left; exact ⟨_, rfl⟩
    · right; right; right; right; right; right; left; exact ⟨_, rfl⟩
  | dec =>
    simp only [exec, execDec] at h
    split at h
    · cases h; right; right; right; left; exact ⟨_, rfl⟩
    split at h <;> cases h
    · right; right; right; left; exact ⟨_, rfl⟩
    · right; right; right; right; right; right; right; exact ⟨_, rfl⟩

/-- Every command answers a next state. -/
theorem exec_next (i : Instr) : ∃ t, exec i s = .next t := by cases i <;> exact ⟨_, rfl⟩

theorem execWord_next (w : Word) : ∃ t, execWord w s = .next t := by
  unfold execWord
  split
  · exact exec_next s _
  · exact ⟨_, rfl⟩

/-- Commands in a row, the first of them split off where it ends. -/
theorem execAll_append (first later : List Instr) {s t : State} (h : execAll first s = .next t) :
    execAll (first ++ later) s = execAll later t := by
  induction first generalizing s with
  | nil => cases h; rfl
  | cons i rest ih =>
    obtain ⟨u, hu⟩ := exec_next s i
    simp only [execAll, List.cons_append, hu] at h ⊢
    exact ih h

/-! ### Transactions -/

/-- A location the host may read but not write (20_memory.md R51). -/
def Location.readOnly : Location → Prop
  | .status | .res | .cap | .c _ | .ci _ | .kc => True
  | _ => False

/-- Everything a host write can do: execute a command word at `CMD`, write a register or a Word of the buffer, refuse a
length above `MSGWORDS`, or raise `E_ADDR` where nothing can be written. -/
theorem hostWrite_cases {a : Address} {v : Word} {t : State} (h : hostWrite a v s = .next t) :
    (locate s.cfg a = some .cmd ∧ execWord v s = .next t) ∨
    (locate s.cfg a = some .len ∧ v.toNat ≤ s.cfg.msgWords ∧ t = s.setLen v.toNat) ∨
    (locate s.cfg a = some .gamma ∧ t = s.setGamma v) ∨ (locate s.cfg a = some .opx ∧ t = s.setOpx v) ∨
    (∃ i, locate s.cfg a = some (.key i) ∧ t = s.writeKey i v) ∨
    (∃ i, locate s.cfg a = some (.msg i) ∧ t = s.writeMsg i v) ∨
    (locate s.cfg a = some .len ∧ s.cfg.msgWords < v.toNat ∧ t = s.raise .range) ∨
    ((∀ l, locate s.cfg a = some l → l.readOnly) ∧ t = s.raise .addr) := by
  unfold hostWrite at h
  cases hl : locate s.cfg a with
  | none => rw [hl] at h; cases h; simp
  | some l =>
    rw [hl] at h
    cases l <;> simp only at h
    case cmd => simp [h]
    case len =>
      cases h
      unfold State.writeLen
      by_cases hv : v.toNat ≤ s.cfg.msgWords
      · simp [hv]
      · have : s.cfg.msgWords < v.toNat := by omega
        simp [hv, this]
    all_goals (cases h; simp [Location.readOnly])

theorem hostWrite_next (a : Address) (v : Word) : ∃ t, hostWrite a v s = .next t := by
  unfold hostWrite
  split
  · exact execWord_next s v
  all_goals exact ⟨_, rfl⟩

/-- A host read answers one Word, and raises `E_ADDR` at most. -/
theorem hostRead_cases (a : Address) :
    (∃ l, locate s.cfg a = some l ∧ s.hostRead a = s.respond (s.readLocation l)) ∨
    (locate s.cfg a = none ∧ s.hostRead a = (s.raise .addr).respond 0#32) := by
  unfold State.hostRead
  cases h : locate s.cfg a with
  | some l => exact .inl ⟨l, rfl, rfl⟩
  | none => exact .inr ⟨rfl, rfl⟩

theorem transact_next (x : Transaction) : ∃ t, transact x s = .next t := by
  cases x with
  | reset => exact ⟨_, rfl⟩
  | read a => exact ⟨_, rfl⟩
  | write a v => exact hostWrite_next s a v

/-! ### The address map -/

/-- The word address of a location, counted from 0 (20_memory.md R51). -/
def Location.offset : Location → Nat
  | .cmd => 0x00000
  | .status => 0x00001
  | .len => 0x00002
  | .gamma => 0x00003
  | .opx => 0x00004
  | .res => 0x00005
  | .cap => 0x00006
  | .key i => 0x00008 + i.val
  | .c i => 0x00010 + i.val
  | .ci i => 0x00014 + i.val
  | .kc => 0x00018
  | .msg i => 0x40000 + i

/-- A location exists: a Word of the buffer does below `MSGWORDS`, any register does. -/
def Location.present (cfg : Config) : Location → Prop
  | .msg i => i < cfg.msgWords
  | _ => True

/-- An address names a location exactly if the location exists and the address is its. -/
theorem locate_eq_some_iff {cfg : Config} {a : Address} {l : Location} :
    locate cfg a = some l ↔ a.toNat = l.offset ∧ l.present cfg := by
  have hfin : ∀ (k : Nat) (i : Fin 4), k < 4 → (i = Fin.ofNat 4 k ↔ k = i.val) := by
    intro k i hk
    rw [eq_comm, Fin.ext_iff, Fin.val_ofNat, Nat.mod_eq_of_lt hk]
  unfold locate
  dsimp only
  generalize a.toNat = n
  simp only [ite_some_eq_some, reduceCtorEq, and_false, or_false]
  cases l <;> simp only [Location.offset, Location.present, reduceCtorEq, false_and, and_false, or_false, false_or,
    true_and, and_true, Location.key.injEq, Location.c.injEq, Location.ci.injEq, Location.msg.injEq]
  case key i =>
    have := i.isLt
    refine ⟨?_, fun h => ?_⟩
    · rintro ⟨_, _, _, _, _, _, _, h, h'⟩
      rw [hfin _ _ (by omega)] at h; omega
    · rw [hfin _ _ (by omega)]; omega
  case c i =>
    have := i.isLt
    refine ⟨?_, fun h => ?_⟩
    · rintro ⟨_, _, _, _, _, _, _, _, h, h'⟩
      rw [hfin _ _ (by omega)] at h; omega
    · rw [hfin _ _ (by omega)]; omega
  case ci i =>
    have := i.isLt
    refine ⟨?_, fun h => ?_⟩
    · rintro ⟨_, _, _, _, _, _, _, _, _, h, h'⟩
      rw [hfin _ _ (by omega)] at h; omega
    · rw [hfin _ _ (by omega)]; omega
  all_goals omega

/-- The unmapped addresses. -/
theorem locate_eq_none_iff {cfg : Config} {a : Address} : locate cfg a = none ↔
    a.toNat = 0x00007 ∨ (0x0000C ≤ a.toNat ∧ a.toNat ≤ 0x0000F) ∨ (0x00019 ≤ a.toNat ∧ a.toNat ≤ 0x3FFFF) ∨
      0x40000 + cfg.msgWords ≤ a.toNat := by
  unfold locate
  dsimp only
  generalize a.toNat = n
  simp only [ite_some_eq_none, and_true]
  omega

/-! ### Steps -/

theorem step_idle {s : State} (h : s.pending = []) : step s = .next s := by
  unfold step; rw [h]

theorem step_cons {s : State} {x : Transaction} {rest : List Transaction} (h : s.pending = x :: rest) :
    step s = transact x { s with pending := rest } := by
  unfold step; rw [h]

theorem runSteps_zero : runSteps 0 s = .next s := rfl

theorem run_succ (M : Host.Core) (n : Nat) {s t : M.State} (h : M.step s = .next t) :
    M.run (n + 1) s = M.run n t := by
  rw [Host.Core.run, h]

theorem runSteps_succ (n : Nat) {s t : State} (h : step s = .next t) : runSteps (n + 1) s = runSteps n t :=
  run_succ Sys2Proof.core n h

theorem step_next : ∃ t, step s = .next t := by
  unfold step
  split
  · exact ⟨_, rfl⟩
  · exact transact_next _ _

/-! ### The reads among transactions -/

@[simp] theorem readAddresses_nil : readAddresses [] = [] := rfl

@[simp] theorem readAddresses_read (a : Address) (rest : List Transaction) :
    readAddresses (.read a :: rest) = a :: readAddresses rest := rfl

@[simp] theorem readAddresses_reset (rest : List Transaction) : readAddresses (.reset :: rest) = readAddresses rest := rfl

@[simp] theorem readAddresses_write (a : Address) (v : Word) (rest : List Transaction) :
    readAddresses (.write a v :: rest) = readAddresses rest := rfl

end Sys2Proof.Machine
end

