-- ==== Sys2Proof/Laws/PerInstr.lean ====
section
/-! SUPPORT. Facts about every command as syntax, one lemma per constructor: the opcode its word carries
(spec/30_encoding.md R80, R84). -/

namespace Sys2Proof.Laws.OpcodeField

/-- Bits 31:24 of the word of a well-formed command are the column `op` of its row. -/
def Statement (i : Instr) : Prop := i.WellFormed → opField (encode i) = i.opcode

theorem nop : Statement .nop := fun _ => by decide
theorem srst : Statement .srst := fun _ => by decide
theorem gmul : Statement .gmul := fun _ => by decide
theorem ginv : Statement .ginv := fun _ => by decide
theorem minv : Statement .minv := fun _ => by decide

theorem xfrm (blk : Nat) : Statement (.xfrm blk) := fun h => by
  simp only [Instr.WellFormed, Instr.wellFormed, blockFits, decide_eq_true_eq] at h
  rw [opField_eq, encode, BitVec.toNat_add, BitVec.toNat_ofNat, BitVec.toNat_ofNat, Instr.opcode]
  omega

theorem ixfrm (blk : Nat) : Statement (.ixfrm blk) := fun h => by
  simp only [Instr.WellFormed, Instr.wellFormed, blockFits, decide_eq_true_eq] at h
  rw [opField_eq, encode, BitVec.toNat_add, BitVec.toNat_ofNat, BitVec.toNat_ofNat, Instr.opcode]
  omega

theorem kxor (blk r : Nat) : Statement (.kxor blk r) := fun h => by
  simp only [Instr.WellFormed, Instr.wellFormed, blockFits, roundFits, Bool.and_eq_true, decide_eq_true_eq] at h
  rw [opField_eq, encode, BitVec.toNat_add, BitVec.toNat_add, BitVec.toNat_ofNat, BitVec.toNat_ofNat,
    BitVec.toNat_ofNat, Instr.opcode]
  omega

theorem encb (blk : Nat) : Statement (.encb blk) := fun h => by
  simp only [Instr.WellFormed, Instr.wellFormed, blockFits, decide_eq_true_eq] at h
  rw [opField_eq, encode, BitVec.toNat_add, BitVec.toNat_ofNat, BitVec.toNat_ofNat, Instr.opcode]
  omega

theorem decb (blk : Nat) : Statement (.decb blk) := fun h => by
  simp only [Instr.WellFormed, Instr.wellFormed, blockFits, decide_eq_true_eq] at h
  rw [opField_eq, encode, BitVec.toNat_add, BitVec.toNat_ofNat, BitVec.toNat_ofNat, Instr.opcode]
  omega

theorem pad : Statement .pad := fun _ => by decide
theorem enc : Statement .enc := fun _ => by decide
theorem dec : Statement .dec := fun _ => by decide

end Sys2Proof.Laws.OpcodeField
end

