-- ==== Sys2Proof/Laws/Ring.lean ====
section
/-! SUPPORT. The modular ring as arithmetic of numbers: when a Word is the sentinel, the value of a product, and when two
Words are equal (spec/40_modular_arithmetic.md R100, R101). -/

namespace Sys2Proof.Machine

theorem modulus_eq : modulus = 4294967295 := rfl

theorem modulus_pos : 0 < modulus := by decide

theorem sentinel_toNat : sentinel.toNat = modulus := rfl

/-- Every Word but the sentinel is a member of the ring. -/
theorem ne_sentinel_iff (x : Word) : x ≠ sentinel ↔ x.toNat < modulus := by
  rw [ne_eq, ← BitVec.toNat_inj, sentinel_toNat]
  have h := x.isLt
  rw [modulus_eq]
  omega

@[simp] theorem gammaMul_sentinel (g : Word) : gammaMul g sentinel = sentinel := if_pos rfl

/-- The value of a product, of any Word with a member of the ring. -/
theorem gammaMul_toNat (g : Word) {x : Word} (h : x ≠ sentinel) :
    (gammaMul g x).toNat = g.toNat * x.toNat % modulus := by
  have hlt : g.toNat * x.toNat % modulus < 2 ^ 32 := lt_trans (Nat.mod_lt _ modulus_pos) (by decide)
  rw [gammaMul, if_neg h, BitVec.toNat_ofNat, Nat.mod_eq_of_lt hlt]

/-- A Word congruent to another modulo `M` equals it, unless one is the sentinel. -/
theorem eq_of_modEq {x y : Word} (hx : x ≠ sentinel) (hy : y ≠ sentinel) (h : x.toNat ≡ y.toNat [MOD modulus]) :
    x = y := by
  rw [ne_sentinel_iff] at hx hy
  exact BitVec.eq_of_toNat_eq (Nat.ModEq.eq_of_lt_of_lt h hx hy)

end Sys2Proof.Machine
end

