-- ==== Sys2Proof/Machine/Adapter.lean ====
section
/-! DEFINITION. The two functions of the byte adapter at the core's boundary (spec/20_memory.md R57). The adapter is not
part of the core (00_scope.md R5): no step calls these. -/

namespace Sys2Proof.Machine

/-- Up to four bytes packed little-endian, `B[4j] + 2^8*B[4j+1] + 2^16*B[4j+2] + 2^24*B[4j+3]`. -/
def packWord (b0 b1 b2 b3 : BitVec 8) : Word := b3 ++ b2 ++ b1 ++ b0

/-- `BytesToWords(B)`, with `B[i] = 0` beyond the last byte. -/
def bytesToWords : List (BitVec 8) → List Word
  | b0 :: b1 :: b2 :: b3 :: rest => packWord b0 b1 b2 b3 :: bytesToWords rest
  | [b0, b1, b2] => [packWord b0 b1 b2 0#8]
  | [b0, b1] => [packWord b0 b1 0#8 0#8]
  | [b0] => [packWord b0 0#8 0#8 0#8]
  | [] => []

/-- `WordsToBytes(W)`: `w[7:0]`, `w[15:8]`, `w[23:16]`, `w[31:24]` for each Word in order. -/
def wordsToBytes : List Word → List (BitVec 8)
  | [] => []
  | w :: rest =>
    w.extractLsb' 0 8 :: w.extractLsb' 8 8 :: w.extractLsb' 16 8 :: w.extractLsb' 24 8 :: wordsToBytes rest

end Sys2Proof.Machine
end

