-- ==== Sys2Proof/Tests/Slice0.lean ====
section
/-! SUPPORT. The model's own tests. Expected values are the worked examples of spec/95_test_vectors.md (their ids stand in
the comments) and hand calculations from the rules; `Config.testA` and `Config.testB` are its instances `P_A` and `P_B`
with `MSGWORDS = 128`. At the end, a witness for the hypotheses of every obligation that has any. -/

namespace Sys2Proof.Tests

open Sys2Proof.Machine

/-- The reset state under `P_A`. -/
def start : State := { State.reset with cfg := Config.testA }

/-- As `start`, with the key (1, 2, 3, 4) of 95_test_vectors.md section 2.5.3 loaded. -/
def keyed : State := { start with key := ⟨1#32, 2#32, 3#32, 4#32⟩, kv := 0b1111#4 }

/-- As `start`, with `GAMMA`, `OPX` and `RES` given. -/
def operands (g x r : Word) : State := { start with gamma := g, opx := x, res := r }

/-- The next state of an outcome. -/
def next? : Host.Outcome State Fault Refusal → Option State
  | .next s => some s
  | .fault _ => none
  | .refused _ => none

/-- The state after one step that executes the command word `w`. -/
def after (s : State) (w : Nat) : Option State := next? (step (s.withFetchWord 32 w))

/-- The state after one step that executes the transaction `t`. -/
def afterHost (s : State) (t : Transaction) : Option State := next? (step { s with pending := [t] })

/-! ### WellFormed: every check refuses an operand that does not fit its field (30_encoding.md R82, R83) -/

theorem test_wellFormed_xfrm : (Instr.xfrm 65536).wellFormed = false ∧ (Instr.xfrm 65535).wellFormed = true := by decide
theorem test_wellFormed_ixfrm : (Instr.ixfrm 65536).wellFormed = false ∧ (Instr.ixfrm 65535).wellFormed = true := by decide
theorem test_wellFormed_kxor_block :
    (Instr.kxor 65536 0).wellFormed = false ∧ (Instr.kxor 65535 0).wellFormed = true := by decide
theorem test_wellFormed_kxor_round : (Instr.kxor 0 8).wellFormed = false ∧ (Instr.kxor 0 7).wellFormed = true := by decide
theorem test_wellFormed_encb : (Instr.encb 65536).wellFormed = false ∧ (Instr.encb 65535).wellFormed = true := by decide
theorem test_wellFormed_decb : (Instr.decb 65536).wellFormed = false ∧ (Instr.decb 65535).wellFormed = true := by decide

/-! ### Decode: op (8 bits), reserved bits, r (3 bits), blk (16 bits), written out from 30_encoding.md R81 to R84 -/

theorem test_decode_nop : decode 0b00000000_000000000000000000000000#32 = .ok .nop := by decide
theorem test_decode_srst : decode 0b00000001_000000000000000000000000#32 = .ok .srst := by decide
theorem test_decode_gmul : decode 0b00010000_000000000000000000000000#32 = .ok .gmul := by decide
theorem test_decode_ginv : decode 0b00010001_000000000000000000000000#32 = .ok .ginv := by decide
theorem test_decode_minv : decode 0b00010010_000000000000000000000000#32 = .ok .minv := by decide
theorem test_decode_xfrm : decode 0b00100000_00000000_1000000000000011#32 = .ok (.xfrm 32771) := by decide
theorem test_decode_ixfrm : decode 0b00100001_00000000_0100000000000001#32 = .ok (.ixfrm 16385) := by decide
theorem test_decode_kxor : decode 0b00110000_00000_101_0000000000000010#32 = .ok (.kxor 2 5) := by decide
theorem test_decode_encb : decode 0b00110001_00000000_0000000000000001#32 = .ok (.encb 1) := by decide
theorem test_decode_decb : decode 0b00110010_00000000_1111111111111111#32 = .ok (.decb 65535) := by decide
theorem test_decode_pad : decode 0b01000000_000000000000000000000000#32 = .ok .pad := by decide
theorem test_decode_enc : decode 0b01000001_000000000000000000000000#32 = .ok .enc := by decide
theorem test_decode_dec : decode 0b01000010_000000000000000000000000#32 = .ok .dec := by decide

/-- 30_encoding.md R86 and 95_test_vectors.md program 4: unassigned opcodes and must-be-zero bits, by name. -/
theorem test_decode_illegal :
    decode 0x99000000#32 = .error .unassignedOpcode ∧ decode 0x00000001#32 = .error .reservedBitSet ∧
    decode 0x20010000#32 = .error .reservedBitSet ∧ decode 0x30080000#32 = .error .reservedBitSet ∧
    decode 0x42000001#32 = .error .reservedBitSet := by decide

theorem test_decodeTableWord : decodeTableWord 32 0x30050002 = some (.kxor 2 5) ∧ decodeTableWord 32 0x02000000 = none := by
  decide

/-! ### Modular Arithmetic Engine -/

/-- M25, M16 (a product of exactly `M` reduces to 0). -/
theorem test_gmul : (after (operands 0xDEADBEEF#32 0xCAFEBABE#32 9#32) 0x10000000).map (·.res) = some 0x396206DE#32 ∧
    (after (operands 3#32 0x55555555#32 9#32) 0x10000000).map (·.res) = some 0#32 := by decide

/-- M7, M9: the sentinel passes through as second operand only. -/
theorem test_gmul_sentinel : (after (operands 0#32 0xFFFFFFFF#32 9#32) 0x10000000).map (·.res) = some 0xFFFFFFFF#32 ∧
    (after (operands 0xFFFFFFFF#32 5#32 9#32) 0x10000000).map (·.res) = some 0#32 := by decide

/-- Fold checks of M16 and M25. -/
theorem test_gammaMulFold : gammaMulFold 3#32 0x55555555#32 = 0#32 ∧
    gammaMulFold 0xDEADBEEF#32 0xCAFEBABE#32 = 0x396206DE#32 := by decide

/-- G7; G4 (pass-through before the coprimality check). -/
theorem test_ginv : (after (operands 0xCAFEBABE#32 0x396206DE#32 9#32) 0x11000000).map (·.res) = some 0xDEADBEEF#32 ∧
    (after (operands 3#32 0xFFFFFFFF#32 9#32) 0x11000000).map (fun s => (s.res, s.errors)) =
      some (0xFFFFFFFF#32, 0#6) := by decide

/-- G9: `E_NOINV`, `RES` unchanged. -/
theorem test_ginv_noinv : (after (operands 3#32 5#32 9#32) 0x11000000).map (fun s => (s.res, s.errors)) =
    some (9#32, 0b010000#6) := by decide

/-- I7 (a coefficient that does not fit 32 bits), I13 (`a > b`), I11 (base case). -/
theorem test_minv : (after (operands 7#32 0xFFFFFFFF#32 9#32) 0x12000000).map (·.res) = some 0x49249249#32 ∧
    (after (operands 10#32 7#32 9#32) 0x12000000).map (·.res) = some 5#32 ∧
    (after (operands 0#32 1#32 9#32) 0x12000000).map (·.res) = some 1#32 := by decide

/-- V9: `OPX = 0` raises although the gcd is 1. -/
theorem test_minv_noinv : (after (operands 1#32 0#32 9#32) 0x12000000).map (fun s => (s.res, s.errors)) =
    some (9#32, 0b010000#6) := by decide

/-- The constants of `P_A` and `P_B` in 95_test_vectors.md. -/
theorem test_roundConstants :
    [0, 1, 2, 3].map (roundConstant Config.testA) = [0x025F1CDB#32, 0x04BE39B6#32, 0x12F8E6D8#32, 0x2F8E6D81#32] ∧
    [0, 1, 2, 3].map (roundConstant Config.testB) = [0x00000007#32, 0x0000000E#32, 0x00000038#32, 0x00000380#32] := by
  decide

theorem test_inverseConstants :
    [0, 1, 2, 3].map (inverseConstant Config.testA) = [0x0DAD4694#32, 0x06D6A34A#32, 0x81B5A8D2#32, 0x281B5A8D#32] ∧
    [0, 1, 2, 3].map (inverseConstant Config.testB) = [0x49249249#32, 0xA4924924#32, 0x29249249#32, 0x92924924#32] := by
  decide

/-! ### Round Transform -/

/-- Section 2.4.2, last row. -/
theorem test_s3 : s3 ⟨0x01234567#32, 0x89ABCDEF#32, 0xFEDCBA98#32, 0x76543210#32⟩ =
    ⟨0xFEDCBA98#32, 0x76543210#32, 0x01234567#32, 0x89ABCDEF#32⟩ := by decide

/-- T6 (priority of `x0`), T7 (case C, a sentinel Word), T15 (case B) in one function each. -/
theorem test_transform :
    transform Config.testA ⟨0x01234567#32, 0x89ABCDEF#32, 0xFEDCBA98#32, 0x76543210#32⟩ =
      ⟨0xBB21314A#32, 0x1FBD34DC#32, 0x12719F3B#32, 0xEDC9FAE3#32⟩ ∧
    transform Config.testA ⟨0x00000002#32, 0xFFFFFFFF#32, 0x00000000#32, 0x00000003#32⟩ =
      ⟨0x75EA8ECA#32, 0xFB41C649#32, 0x7154B77C#32, 0x8A157135#32⟩ ∧
    transform Config.testB ⟨0x00000002#32, 0xFFFFFFFF#32, 0x00000000#32, 0x00000003#32⟩ =
      ⟨0xFFFFF573#32, 0xFFFFFFF1#32, 0xFFFFF57D#32, 0x00000A8C#32⟩ := by decide

/-- U7, U14. -/
theorem test_inverseTransform :
    inverseTransform Config.testA ⟨1#32, 2#32, 3#32, 4#32⟩ = ⟨0x778685C7#32, 0x00000000#32, 0x888C4C1C#32, 0xF0A41F4E#32⟩ ∧
    inverseTransform Config.testB ⟨1#32, 2#32, 3#32, 4#32⟩ = ⟨0x6DB6DB6E#32, 0x00000000#32, 0xCDB6DB6D#32, 0x6F6DB6DB#32⟩ := by
  decide

/-- Section 2.4.6: `XFRM 0` after reset gives T1; `XFRM 31` acts on the last block. -/
theorem test_xfrm : (after start 0x20000000).map (fun s => (s.readBlock 0, s.errors)) =
      some (⟨0x2AAAAAAA#32, 0#32, 0x2AAAAAAA#32, 0x2AAAAAAA#32⟩, 0#6) ∧
    (after start 0x2000001F).map (·.msg) = some [(124, 0x2AAAAAAA#32), (126, 0x2AAAAAAA#32), (127, 0x2AAAAAAA#32)] := by
  decide

/-- Section 2.4.6: `XFRM 32` raises `E_RANGE` and changes nothing. -/
theorem test_xfrm_range : (after start 0x20000020).map (fun s => (s.msg, s.errors)) = some ([], 0b000010#6) := by decide

/-- U4: `IXFRM` of a zero block; `IXFRM 32` raises `E_RANGE`. -/
theorem test_ixfrm : (after start 0x21000001).map (·.msg) = some [(7, 0x169CFD64#32)] ∧
    (after start 0x21000020).map (·.errors) = some 0b000010#6 := by decide

/-! ### Block Cipher Driver -/

/-- Section 2.5.2, rounds 0 and 5. -/
theorem test_keyMix : [0, 5].map (keyMix ⟨0x11111111#32, 0x22222222#32, 0x33333333#32, 0x44444444#32⟩
      ⟨0x0F1E2D3C#32, 0x4B5A6978#32, 0x8796A5B4#32, 0xC3D2E1F0#32⟩) =
    List.replicate 2 ⟨0x1E0F3C2D#32, 0x69784B5A#32, 0xB4A59687#32, 0x8796A5B4#32⟩ := by decide

/-- Section 2.5.3, round 0. -/
theorem test_kxor : (after keyed 0x30000000).map (·.readBlock 0) = some ⟨1#32, 2#32, 3#32, 4#32⟩ := by decide

/-- Section 2.5.2: `KXOR 0, 6` raises `E_RANGE` (before the missing key does); without a key `KXOR 0, 5` raises `E_KEY`. -/
theorem test_kxor_errors : (after start 0x30060000).map (·.errors) = some 0b000010#6 ∧
    (after start 0x30050000).map (·.errors) = some 0b000100#6 := by decide

/-- Section 2.5.3 under `P_A`, with `LEN = 0`. -/
theorem test_encb : (after keyed 0x31000000).map (·.readBlock 0) =
    some ⟨0x36FCED9B#32, 0x5B03924F#32, 0x8F580A17#32, 0x0B2BF99D#32⟩ := by decide

/-- Program 4: a key file of three Words is no key. -/
theorem test_encb_key : (after { keyed with kv := 0b0111#4 } 0x31000000).map (fun s => (s.msg, s.errors)) =
    some ([], 0b000100#6) := by decide

/-- Section 2.5.4 under `P_A`. -/
theorem test_decb : (after (keyed.writeBlock 0 ⟨0x36FCED9B#32, 0x5B03924F#32, 0x8F580A17#32, 0x0B2BF99D#32⟩) 0x32000000).map
    (·.msg) = some [] := by decide +kernel

/-- `E_RANGE` before `E_KEY` (42_block_driver.md R161). -/
theorem test_decb_range : (after start 0x32000020).map (·.errors) = some 0b000010#6 := by decide

/-- Section 2.5.1, `n = 5`: `MSG[5..7]` are zeroed, `MSG[8]` is not. -/
theorem test_pad : (after { start with len := 5#32, msg := [(4, 7#32), (5, 7#32), (7, 7#32), (8, 7#32)] } 0x40000000).map
    (fun s => (s.len, s.msg)) = some (8#32, [(4, 7#32), (8, 7#32)]) := by decide

/-- Section 2.5.1, `n = 127` and `n = 0`. -/
theorem test_pad_ends : (after { start with len := 127#32 } 0x40000000).map (·.len) = some 128#32 ∧
    (after start 0x40000000).map (·.len) = some 0#32 := by decide

/-- Section 2.5.3: the source's vector, `LEN` from 1 to 4. -/
theorem test_enc : (after { keyed with len := 1#32 } 0x41000000).map (fun s => (s.readBlock 0, s.len)) =
    some (⟨0x36FCED9B#32, 0x5B03924F#32, 0x8F580A17#32, 0x0B2BF99D#32⟩, 4#32) := by decide

/-- Program 4: without a key nothing is padded. -/
theorem test_enc_key : (after { start with len := 1#32 } 0x41000000).map (fun s => (s.len, s.errors)) =
    some (1#32, 0b000100#6) := by decide

/-- Section 2.5.4 through `DEC`. -/
theorem test_dec : (after { keyed.writeBlock 0 ⟨0x36FCED9B#32, 0x5B03924F#32, 0x8F580A17#32, 0x0B2BF99D#32⟩ with
    len := 4#32 } 0x42000000).map (fun s => (s.msg, s.len)) = some ([], 4#32) := by decide +kernel

/-- Program 4: `LEN = 5` raises `E_ALIGN`. -/
theorem test_dec_align : (after { keyed with len := 5#32 } 0x42000000).map (fun s => (s.len, s.errors)) =
    some (5#32, 0b001000#6) := by decide

/-! ### System commands, illegal words, the host port -/

theorem test_nop : after { keyed with errors := 0b000101#6 } 0x00000000 = some { keyed with errors := 0b000101#6 } := by
  decide

/-- Program 4, the last lines: `SRST` clears everything. -/
theorem test_srst : after { keyed with errors := 0b111111#6, len := 5#32, msg := [(0, 0x11111111#32)] } 0x01000000 =
    some start := by decide

/-- Program 4, transaction 15. -/
theorem test_illegal : (after start 0x99000000).map (·.errors) = some 0b000001#6 := by decide

/-- Program 4: `STATUS` reads `0x00000F3F` with the whole key and every error. -/
theorem test_status : { keyed with errors := 0b111111#6 : State }.status = 0x00000F3F#32 := by decide

/-- Program 4: a length above `MSGWORDS`, a write of `RES`; and a read of an unmapped address returns 0. -/
theorem test_host_errors : (afterHost { start with len := 5#32 } (.write lenAddress 129#32)).map
      (fun s => (s.len, s.errors)) = some (5#32, 0b000010#6) ∧
    (afterHost start (.write resAddress 1#32)).map (fun s => (s.res, s.errors)) = some (0#32, 0b100000#6) ∧
    (afterHost start (.read 0x00007#19)).map (fun s => (s.returned, s.errors)) = some ([0#32], 0b100000#6) := by decide

/-- The ends of the message window and of the key file (20_memory.md R51). -/
theorem test_host_map : locate Config.testA 0x4007F#19 = some (.msg 127) ∧ locate Config.testA 0x40080#19 = none ∧
    locate Config.testA 0x0000B#19 = some (.key 3) ∧ locate Config.testA 0x0000C#19 = none ∧
    locate Config.testA 0x00018#19 = some .kc ∧ locate Config.testA 0x00019#19 = none := by decide

/-- Writing a key Word sets its bit of `KV`; writing 0 to a Word of the buffer unlists it. -/
theorem test_host_writes : (afterHost start (.write (keyAddress 2) 3#32)).map (fun s => (s.key.x2, s.kv)) =
      some (3#32, 0b0100#4) ∧
    (afterHost { start with msg := [(3, 7#32)] } (.write (msgAddress 3) 0#32)).map (·.msg) = some [] := by decide

/-- 20_memory.md R57: little-endian packing, zero-filled. -/
theorem test_adapter : bytesToWords [0x78#8, 0x56#8, 0x34#8, 0x12#8, 0xFF#8] = [0x12345678#32, 0x000000FF#32] ∧
    wordsToBytes [0x12345678#32] = [0x78#8, 0x56#8, 0x34#8, 0x12#8] := by decide

/-! ### Witnesses: for each obligation with hypotheses, a state and operands that meet them, clause by clause -/

theorem witness_DecodeOfEncodeIsIdentity : (Instr.kxor 65535 7).WellFormed ∧ (Instr.xfrm 0).WellFormed ∧
    (Instr.decb 65535).WellFormed ∧ Instr.nop.WellFormed := by decide

theorem witness_EncodeOfDecodeIsIdentity : decode 0x3007FFFF#32 = .ok (.kxor 65535 7) := by decide

theorem witness_OpcodeRowsMutuallyExclusive : 12 < opcodeRows.length ∧
    0x42000000#32 &&& opcodeRows[12].mask = opcodeRows[12].pattern := by decide

theorem witness_IllegalWordsAreExactlyThose : decode 0x30080000#32 = .error .reservedBitSet ∧
    { start with pending := [.write 0x00000#19 0x30080000#32] : State }.pending = .write 0x00000#19 0x30080000#32 :: [] := by
  decide

theorem witness_StepRunsDecodedCommand : decode 0x2000001F#32 = .ok (.xfrm 31) ∧
    { start with pending := [.write 0x00000#19 0x2000001F#32] : State }.pending = .write 0x00000#19 0x2000001F#32 :: [] := by
  decide

theorem witness_FetchWordStepRunsCommand : (Instr.ixfrm 65535).WellFormed := by decide

/-- Nothing pending, a read pending, and a transaction pending that is no read. -/
theorem witness_EveryStepHasSuccessor : start.pending = [] ∧
    (∃ a rest, { start with pending := [.read resAddress] : State }.pending = .read a :: rest) ∧
    ¬ ∃ a rest, { start with pending := [.reset] : State }.pending = .read a :: rest :=
  ⟨by decide, ⟨_, _, rfl⟩, nofun⟩

/-- A host that reads every register and both ends of the message window. -/
theorem witness_HostReadFollowsAddressMap :
    ([0x00000#19, 0x00001#19, 0x00002#19, 0x00003#19, 0x00004#19, 0x00005#19, 0x00006#19, 0x00008#19, 0x00009#19,
        0x0000A#19, 0x0000B#19, 0x00010#19, 0x00013#19, 0x00014#19, 0x00017#19, 0x00018#19, 0x40000#19, 0x4007F#19].all
      fun a => (locate start.cfg a).isSome && { start with pending := [.read a] : State }.pending == .read a :: []) = true ∧
    ([0x00007#19, 0x0000C#19, 0x0000F#19, 0x00019#19, 0x3FFFF#19, 0x40080#19, 0x7FFFF#19].all fun a =>
      decide (a.toNat = 0x00007 ∨ (0x0000C ≤ a.toNat ∧ a.toNat ≤ 0x0000F) ∨ (0x00019 ≤ a.toNat ∧ a.toNat ≤ 0x3FFFF) ∨
        0x40000 + start.cfg.msgWords ≤ a.toNat) && { start with pending := [.read a] : State }.pending == .read a :: []) =
      true := by decide

/-- The clauses about values: `KC` at its address, and the last Word of the buffer at its. -/
theorem witness_HostReadFollowsAddressMap_values :
    (0x00018#19).toNat = 0x00018 ∧ start.cfg.kc = 0x2AAAAAAA#32 ∧
    (127 < start.cfg.msgWords ∧ (0x4007F#19).toNat = 0x40000 + 127 ∧ start.msg.read 127 = 0#32) ∧
    ((0x00017#19).toNat = 0x00014 + (3 : Fin 4).val ∧ inverseConstant start.cfg 3 = 0x281B5A8D#32) := by decide

theorem witness_HostWriteFollowsAddressMap :
    ([0x00000#19, 0x00002#19, 0x00003#19, 0x00004#19, 0x00008#19, 0x00009#19, 0x0000A#19, 0x0000B#19].all fun a =>
      { start with pending := [.write a 128#32] : State }.pending == .write a 128#32 :: []) = true ∧
    decode 0x42000000#32 = .ok .dec ∧ decode 0x43000000#32 = .error .unassignedOpcode ∧
    (128#32).toNat ≤ start.cfg.msgWords ∧ start.cfg.msgWords < (129#32).toNat ∧
    (0 < start.cfg.msgWords ∧ (0x40000#19).toNat = 0x40000 + 0 ∧ start.msg.wf) ∧
    (127 < start.cfg.msgWords ∧ (0x4007F#19).toNat = 0x40000 + 127) ∧
    ([0x00001#19, 0x00005#19, 0x00006#19, 0x00007#19, 0x0000C#19, 0x3FFFF#19, 0x40080#19, 0x7FFFF#19].all fun a =>
      decide (a.toNat = 0x00001 ∨ a.toNat = 0x00005 ∨ a.toNat = 0x00006 ∨ a.toNat = 0x00007 ∨
        (0x0000C ≤ a.toNat ∧ a.toNat ≤ 0x3FFFF) ∨ 0x40000 + start.cfg.msgWords ≤ a.toNat)) = true := by decide

theorem witness_WrittenValueReadBackNext : start.msg.wf ∧
    ([0x00002#19, 0x00003#19, 0x00004#19, 0x00008#19, 0x0000B#19, 0x40000#19, 0x4007F#19].all fun a =>
      { start with pending := [.write a 128#32, .read a] : State }.pending == .write a 128#32 :: .read a :: [] &&
      decide ((a.toNat = 0x00002 ∧ (128#32).toNat ≤ start.cfg.msgWords) ∨ a.toNat = 0x00003 ∨ a.toNat = 0x00004 ∨
        (0x00008 ≤ a.toNat ∧ a.toNat ≤ 0x0000B) ∨ (0x40000 ≤ a.toNat ∧ a.toNat < 0x40000 + start.cfg.msgWords))) = true := by
  decide

theorem witness_ResetGivesSpecifiedValues : { keyed with pending := [.reset] : State }.pending = .reset :: [] := by decide

theorem witness_NopChangesNothing : (0x00FFFFFF#32).toNat / 2 ^ 24 = 0 ∧ 0x00FFFFFF#32 ≠ 0#32 := by decide

theorem witness_GammaMulLaws : 0xFFFFFFFE#32 ≠ 0xFFFFFFFF#32 ∧ 0 < 1 ∧ 31 < 32 := by decide

theorem witness_GammaMulBijectiveExactlyForUnits :
    Nat.gcd (7#32).toNat modulus = 1 ∧ Nat.gcd (3#32).toNat modulus ≠ 1 := by decide

theorem witness_ModInverseHasSpecifiedValue : (2 ≤ 2 ∧ Nat.gcd 1 2 = 1) ∧ (2 ≤ 7 ∧ Nat.gcd 10 7 = 1) ∧
    (1 ≤ 5 ∧ 5 ≤ 7 - 1 ∧ 10 * 5 % 7 = 1) ∧ Nat.gcd 4 6 ≠ 1 ∧ Nat.gcd 1 0 = 1 := by decide

theorem witness_InverseGammaMulValue : Nat.gcd (0xFFFFFFFE#32).toNat modulus = 1 ∧ Nat.gcd (0#32).toNat modulus ≠ 1 ∧
    7#32 ≠ 0xFFFFFFFF#32 := by decide

theorem witness_FoldReductionEqualsGammaMul : 0x55555555#32 ≠ 0xFFFFFFFF#32 := by decide

theorem witness_GammaMulRoundTrip : Nat.gcd (0xCAFEBABE#32).toNat modulus = 1 := by decide

theorem witness_GinvWritesQuotientOrRaises : (operands 3#32 0xFFFFFFFF#32 0#32).opx = 0xFFFFFFFF#32 ∧
    ((operands 3#32 5#32 0#32).opx ≠ 0xFFFFFFFF#32 ∧ Nat.gcd (operands 3#32 5#32 0#32).gamma.toNat (2 ^ 32 - 1) ≠ 1) ∧
    ((operands 11#32 5#32 0#32).opx ≠ 0xFFFFFFFF#32 ∧ Nat.gcd (operands 11#32 5#32 0#32).gamma.toNat (2 ^ 32 - 1) = 1) := by
  decide

theorem witness_MinvWritesInverseOrRaises : (operands 1#32 0#32 0#32).opx = 0#32 ∧
    Nat.gcd (operands 4#32 6#32 0#32).gamma.toNat (operands 4#32 6#32 0#32).opx.toNat ≠ 1 ∧
    (operands 0#32 1#32 0#32).opx = 1#32 ∧
    (2 ≤ (operands 1#32 2#32 0#32).opx.toNat ∧
      Nat.gcd (operands 1#32 2#32 0#32).gamma.toNat (operands 1#32 2#32 0#32).opx.toNat = 1) := by decide

theorem witness_ConstantsNeverChange : reaches start start := ⟨0, rfl⟩

theorem witness_TransformStages : (1#32)[0] = true ∧ (0#32)[0] = false ∧ (2#32)[0] = false ∧ (3#32)[0] = true := by decide

theorem witness_StageTwoInvolutionIffEven : (0x2AAAAAAA#32)[0] = false ∧ (0x2AAAAAAB#32)[0] = true := by decide

theorem witness_TransformOfZeroAndOnes : Config.testA.kc ≠ 0#32 := by decide

theorem witness_XfrmTransformsItsBlock : 65535 < 65536 ∧ start.msg.wf ∧ start.cfg.msgWords ≤ 4 * 32 + 3 ∧
    4 * 31 + 3 < start.cfg.msgWords ∧ (123 < 4 * 31 ∨ 4 * 31 + 3 < 123) ∧
    start.readBlock 31 = ⟨0#32, 0#32, 0#32, 0#32⟩ := by decide

theorem witness_IxfrmInverseTransformsItsBlock : 65535 < 65536 ∧ start.msg.wf ∧ start.cfg.msgWords ≤ 4 * 32 + 3 ∧
    4 * 31 + 3 < start.cfg.msgWords ∧ (123 < 4 * 31 ∨ 4 * 31 + 3 < 123) ∧
    (start.writeBlock 31 ⟨0x2AAAAAAA#32, 0#32, 0x2AAAAAAA#32, 0x2AAAAAAA#32⟩).readBlock 31 =
      ⟨Config.testA.kc, 0#32, Config.testA.kc, Config.testA.kc⟩ := by decide

theorem witness_PaddingLaw : ([] : List Word).length % 4 = 0 ∧ [1#32].length % 4 = 1 ∧ [1#32, 1#32].length % 4 = 2 ∧
    [1#32, 1#32, 1#32].length % 4 = 3 := by decide

theorem witness_MessageFunctionsActBlockwise : (pad [1#32, 2#32, 3#32, 4#32, 5#32])[4 * 1]? = some 5#32 ∧
    (pad [1#32, 2#32, 3#32, 4#32, 5#32])[4 * 1 + 1]? = some 0#32 ∧
    (pad [1#32, 2#32, 3#32, 4#32, 5#32])[4 * 1 + 2]? = some 0#32 ∧
    (pad [1#32, 2#32, 3#32, 4#32, 5#32])[4 * 1 + 3]? = some 0#32 := by decide

theorem witness_KxorMixesKeyIntoItsBlock : 65535 < 65536 ∧ 7 < 8 ∧ start.msg.wf ∧ keyed.msg.wf ∧ 5 < 6 ∧
    start.cfg.msgWords ≤ 4 * 32 + 3 ∧ (5 ≤ 5 ∧ 4 * 31 + 3 < start.cfg.msgWords ∧ start.kv ≠ 0b1111#4) ∧
    (5 ≤ 5 ∧ 4 * 31 + 3 < keyed.cfg.msgWords ∧ keyed.kv = 0b1111#4) := by decide

theorem witness_EncbEncryptsItsBlock : 65535 < 65536 ∧ start.msg.wf ∧ keyed.msg.wf ∧ start.cfg.msgWords ≤ 4 * 32 + 3 ∧
    (4 * 31 + 3 < start.cfg.msgWords ∧ start.kv ≠ 0b1111#4) ∧
    (4 * 31 + 3 < keyed.cfg.msgWords ∧ keyed.kv = 0b1111#4) := by decide

theorem witness_DecbDecryptsItsBlock : 65535 < 65536 ∧ start.msg.wf ∧ keyed.msg.wf ∧ start.cfg.msgWords ≤ 4 * 32 + 3 ∧
    (4 * 31 + 3 < start.cfg.msgWords ∧ start.kv ≠ 0b1111#4) ∧
    (4 * 31 + 3 < keyed.cfg.msgWords ∧ keyed.kv = 0b1111#4) := by decide

/-- A message of 127 Words in a buffer of 128, with its key. -/
def longMessage : State := { keyed with len := 127#32, msg := [(0, 1#32), (126, 2#32), (127, 9#32)] }

theorem witness_PadCommandZeroPads : longMessage.Inv ∧ start.Inv ∧ start.len.toNat % 4 = 0 ∧
    (longMessage.len.toNat ≤ 127 ∧ 127 < (128#32).toNat) ∧ 126 < longMessage.len.toNat := by decide

theorem witness_EncEncryptsMessageInPlace : start.Inv ∧ start.kv ≠ 0b1111#4 ∧ longMessage.Inv ∧
    longMessage.kv = 0b1111#4 ∧ keyed.Inv ∧ keyed.kv = 0b1111#4 ∧ keyed.len = 0#32 := by decide

theorem witness_DecDecryptsMessageInPlace : start.Inv ∧ start.kv ≠ 0b1111#4 ∧
    (longMessage.Inv ∧ longMessage.kv = 0b1111#4 ∧ longMessage.len.toNat % 4 ≠ 0) ∧
    ({ longMessage with len := 128#32 : State }.Inv ∧ { longMessage with len := 128#32 : State }.kv = 0b1111#4 ∧
      { longMessage with len := 128#32 : State }.len.toNat % 4 = 0) ∧
    (keyed.Inv ∧ keyed.kv = 0b1111#4 ∧ keyed.len.toNat % 4 = 0 ∧ keyed.len = 0#32) := by decide

theorem witness_EncThenDecIsPad : longMessage.Inv ∧ longMessage.kv = 0b1111#4 := by decide

theorem witness_MacroCommandsEqualMicroCommands : longMessage.Inv ∧ longMessage.kv = 0b1111#4 ∧
    ({ longMessage with len := 128#32 : State }.Inv ∧ { longMessage with len := 128#32 : State }.kv = 0b1111#4 ∧
      { longMessage with len := 128#32 : State }.len.toNat % 4 = 0) := by decide

/-- Two states that agree on key, length and Message and differ in everything else an ENC could look at. -/
theorem witness_EncDependsOnlyOnKeyAndMessage :
    let s : State := { keyed with len := 2#32, msg := [(0, 1#32), (1, 2#32)] }
    let s' : State := { keyed with
      len := 2#32, msg := [(0, 1#32), (1, 2#32), (2, 3#32), (9, 4#32)], gamma := 1#32, opx := 2#32, res := 3#32,
      errors := 0b111111#6 }
    s.Inv ∧ s'.Inv ∧ s.cfg = s'.cfg ∧ s.kv = 0b1111#4 ∧ s'.kv = 0b1111#4 ∧ s.key = s'.key ∧ s.len = s'.len ∧
      (∀ i, i < s.len.toNat → s.readMsg i = s'.readMsg i) ∧ s ≠ s' := by decide

/-- A next state for the command of each clause. -/
theorem witness_CommandFrames : longMessage.msg.wf ∧
    ∀ i ∈ [Instr.nop, .gmul, .ginv, .minv, .xfrm 31, .ixfrm 31, .kxor 31 5, .encb 31, .decb 31, .pad, .enc, .dec],
      (next? (exec i longMessage)).isSome = true := by decide

theorem witness_StepKeepsStateInvariant : longMessage.Inv ∧
    (next? (step { longMessage with pending := [.write (msgAddress 127) 5#32] })).isSome = true := by decide

theorem witness_KeyValidBitsTrackKeyWrites :
    (next? (step { start with pending := [.write (keyAddress 3) 5#32] })).isSome = true ∧ (keyAddress 3).toNat = 0x0000B := by
  decide

theorem witness_OnlyHostWritesChangeInputRegisters : Instr.dec ≠ .srst ∧ (next? (exec .dec keyed)).isSome = true ∧
    ((afterHost start (.write gammaAddress 5#32)).map (·.gamma) = some 5#32 ∧ start.gamma ≠ 5#32) ∧
    ((afterHost start (.write (keyAddress 0) 5#32)).map (·.key.get 0) = some 5#32 ∧ start.key.get 0 ≠ 5#32) ∧
    ((afterHost start (.write (keyAddress 3) 0#32)).map (·.kv.getLsbD 3) = some true ∧
      start.kv.getLsbD 3 ≠ true) := by decide

/-- A read and a write that both raise `E_ADDR`. -/
theorem witness_TransactionRaisesAtMostOneErrorPrecisely :
    ({ start with pending := [.read 0x00007#19] : State }.pending = .read 0x00007#19 :: [] ∧
      ∃ a, Transaction.read 0x00007#19 = .read a) ∧
    ({ start with pending := [.write 0x00007#19 5#32] : State }.pending = .write 0x00007#19 5#32 :: [] ∧
      ¬ ∃ a, Transaction.write 0x00007#19 5#32 = .read a) :=
  ⟨⟨by decide, _, rfl⟩, by decide, nofun⟩

/-- Error bits set before a reset, clear after it. -/
theorem witness_ErrorBitsClearedOnlyByReset :
    (afterHost { start with errors := 0b100000#6 } .reset).map (·.errors.getLsbD 5) = some false ∧
    (0b100000#6).getLsbD 5 = true := by decide

/-- Two runs that differ in their error bits, with a read of `STATUS`, answered differently there in the error bit of the
start, and a read of another register, and a reset after them: one of each clause. -/
theorem witness_ErrorBitsNeverInfluenceExecution :
    let host := [command .enc, .read statusAddress, .read resAddress, .reset]
    (¬ (.reset ∈ host.take 3 ∨ .write 0x00000#19 0x01000000#32 ∈ host.take 3) ∧ .reset ∈ host.take 4) ∧
    (∃ r : BitVec 6, 0b000100#6 = start.errors ||| r ∧ 0b100100#6 = 0b100000#6 ||| r) ∧
    (next? (runSteps 3 { start with pending := host, errors := 0b100000#6 })).map (·.errors) = some 0b100100#6 ∧
    (next? (runSteps 4 { start with pending := host, errors := 0b100000#6 })).map (·.errors) = some 0b000000#6 ∧
    readAddresses (host.take 3) = [0x00001#19, 0x00005#19] ∧
    (next? (runSteps 3 { start with pending := host })).map (·.returned) = some [0b000100#32, 0#32] ∧
    (next? (runSteps 3 { start with pending := host, errors := 0b100000#6 })).map (·.returned) =
      some [0b100100#32, 0#32] := by decide

/-- `LDMSG` of the last two Words of the buffer. -/
theorem witness_LoadingPseudoInstructions :
    { start with pending := setKey ⟨1#32, 2#32, 3#32, 4#32⟩ ++ [] : State }.pending = setKey ⟨1#32, 2#32, 3#32, 4#32⟩ ++ [] ∧
    ({ start with pending := setLength 128#32 ++ [] : State }.pending = setLength 128#32 ++ [] ∧
      (128#32).toNat ≤ start.cfg.msgWords) ∧
    (start.msg.wf ∧ 126 + [7#32, 8#32].length ≤ start.cfg.msgWords ∧
      { start with pending := loadMessage 126 [7#32, 8#32] ++ [] : State }.pending = loadMessage 126 [7#32, 8#32] ++ [] ∧
      [7#32, 8#32][1]? = some 8#32 ∧ 125 < 126) := by decide

/-- Each with a transaction of the host's after it. -/
theorem witness_MulqAndInvqReturnResults :
    { start with pending := mulq 5#32 7#32 ++ [.reset] : State }.pending = mulq 5#32 7#32 ++ [.reset] ∧
    (Nat.gcd (7#32).toNat modulus = 1 ∧
      { start with pending := invq 7#32 ++ [.reset] : State }.pending = invq 7#32 ++ [.reset]) ∧
    (Nat.gcd (3#32).toNat modulus ≠ 1 ∧
      { start with pending := invq 3#32 ++ [.reset] : State }.pending = invq 3#32 ++ [.reset]) := by decide

end Sys2Proof.Tests
end

namespace Sys2Proof.Machine

/-! ### Host reads and writes by the address map (20_memory.md R51 to R53, R64) -/

section HostPort

variable {s : State} {a : Address} {v : Word} {rest : List Transaction}

/-! A host write, one equation for each kind of location. -/

theorem hostWrite_cmd (h : locate s.cfg a = some .cmd) : hostWrite a v s = execWord v s := by
  rw [hostWrite, h]

theorem hostWrite_len (h : locate s.cfg a = some .len) : hostWrite a v s = .next (s.writeLen v) := by
  rw [hostWrite, h]

theorem hostWrite_gamma (h : locate s.cfg a = some .gamma) : hostWrite a v s = .next (s.setGamma v) := by
  rw [hostWrite, h]

theorem hostWrite_opx (h : locate s.cfg a = some .opx) : hostWrite a v s = .next (s.setOpx v) := by
  rw [hostWrite, h]

theorem hostWrite_key {i : Fin 4} (h : locate s.cfg a = some (.key i)) :
    hostWrite a v s = .next (s.writeKey i v) := by
  rw [hostWrite, h]

theorem hostWrite_msg {i : Nat} (h : locate s.cfg a = some (.msg i)) :
    hostWrite a v s = .next (s.writeMsg i v) := by
  rw [hostWrite, h]

theorem hostWrite_unwritable (h : ∀ l, locate s.cfg a = some l → l.readOnly) :
    hostWrite a v s = .next (s.raise .addr) := by
  rw [hostWrite]
  cases hl : locate s.cfg a with
  | none => rfl
  | some l =>
    have hro : l.readOnly := h l hl
    cases l with
    | status | res | cap | c | ci | kc => rfl
    | cmd | len | gamma | opx | key | msg => exact hro.elim

theorem execWord_of_ok {i : Instr} (h : decode v = .ok i) : execWord v s = exec i s := by
  rw [execWord, h]

theorem execWord_of_error {e : DecodeError} (h : decode v = .error e) :
    execWord v s = .next (s.raise .illegal) := by
  rw [execWord, h]

theorem State.writeLen_of_le (h : v.toNat ≤ s.cfg.msgWords) : s.writeLen v = { s with len := v } := by
  rw [State.writeLen, if_pos h, State.setLen, BitVec.ofNat_toNat, BitVec.setWidth_eq]

theorem State.writeLen_of_lt (h : s.cfg.msgWords < v.toNat) : s.writeLen v = s.raise .range := by
  rw [State.writeLen, if_neg (Nat.not_le.2 h)]

/-- Nothing can be written at the read-only addresses, in the gaps of the map and beyond the buffer. -/
theorem readOnly_of_locate {cfg : Config} {l : Location}
    (ha : a.toNat = 0x00001 ∨ a.toNat = 0x00005 ∨ a.toNat = 0x00006 ∨ a.toNat = 0x00007 ∨
      (0x0000C ≤ a.toNat ∧ a.toNat ≤ 0x3FFFF) ∨ 0x40000 + cfg.msgWords ≤ a.toNat)
    (hl : locate cfg a = some l) : l.readOnly := by
  obtain ⟨hoff, hpresent⟩ := locate_eq_some_iff.1 hl
  cases l with
  | status | res | cap | c | ci | kc => trivial
  | cmd | len | gamma | opx | key => simp only [Location.offset] at hoff; omega
  | msg => simp only [Location.offset, Location.present] at hoff hpresent; omega

/-- No location shows the host's list of transactions. -/
theorem State.readLocation_pending (l : Location) :
    State.readLocation { s with pending := rest } l = s.readLocation l := by
  cases l <;> rfl

/-- 20_memory.md R52, the arms of the mapped addresses (`CMD` reads as zero). -/
theorem step_read_at (hp : s.pending = .read a :: rest) (l : Location) (ha : a.toNat = l.offset)
    (hl : l.present s.cfg) (hv : v = s.readLocation l) :
    step s = .next { s with pending := rest, returned := s.returned ++ [v] } := by
  have hloc : locate s.cfg a = some l := locate_eq_some_iff.2 ⟨ha, hl⟩
  rw [step_cons hp, transact, State.hostRead, hloc, hv, ← State.readLocation_pending (rest := rest)]
  rfl

/-- 20_memory.md R52, the arm of the unmapped addresses. -/
theorem step_read_unmapped (hp : s.pending = .read a :: rest) (ha : locate s.cfg a = none) :
    step s = .next { s with
      pending := rest, errors := s.errors ||| 0b100000#6, returned := s.returned ++ [0#32] } := by
  rw [step_cons hp, transact, State.hostRead, ha]
  rfl

theorem step_write (hp : s.pending = .write a v :: rest) :
    step s = hostWrite a v { s with pending := rest } :=
  step_cons hp

/-- 20_memory.md R53, the arm of `K[i]`. -/
theorem step_write_key (hp : s.pending = .write a v :: rest) (i : Fin 4) (ha : a.toNat = 0x00008 + i.val) :
    step s = .next { s with
      pending := rest, key := s.key.set i v, kv := s.kv ||| (1#4 <<< i.val) } := by
  have hloc : locate s.cfg a = some (.key i) := locate_eq_some_iff.2 ⟨ha, trivial⟩
  exact (step_write hp).trans (hostWrite_key hloc)

/-- 20_memory.md R53, the arm of `MSG[i]`, as what the buffer then reads. -/
theorem step_write_msg (hp : s.pending = .write a v :: rest) {i : Nat} (hi : i < s.cfg.msgWords)
    (ha : a.toNat = 0x40000 + i) (hwf : s.msg.wf) :
    ∃ t, step s = .next t ∧ t = { s with pending := rest, msg := t.msg } ∧ t.msg.read i = v ∧
      ∀ j, j ≠ i → t.msg.read j = s.msg.read j := by
  have hloc : locate s.cfg a = some (.msg i) := locate_eq_some_iff.2 ⟨ha, hi⟩
  refine ⟨{ s with pending := rest, msg := s.msg.write i v }, ?_, rfl, ?_, fun j hj => ?_⟩
  · exact (step_write hp).trans (hostWrite_msg hloc)
  · rw [Memory.read_write hwf, if_pos rfl]
  · rw [Memory.read_write hwf, if_neg hj]

end HostPort

/-- Settles O10: every clause names the location at the address, or says that there is none. -/
theorem hostReadFollowsAddressMap : Obligations.HostReadFollowsAddressMap := by
  intro s a rest hp
  refine ⟨fun v hmapped => ?_, fun hunmapped => step_read_unmapped hp (locate_eq_none_iff.2 hunmapped)⟩
  obtain ⟨ha, hv⟩ | ⟨ha, hv⟩ | ⟨ha, hv⟩ | ⟨ha, hv⟩ | ⟨ha, hv⟩ | ⟨ha, hv⟩ | ⟨ha, hv⟩ | ⟨ha, hv⟩ | ⟨ha, hv⟩ |
    ⟨ha, hv⟩ | ⟨ha, hv⟩ | ⟨i, ha, hv⟩ | ⟨i, ha, hv⟩ | ⟨ha, hv⟩ | ⟨i, hi, ha, hv⟩ := hmapped
  · exact step_read_at hp .cmd ha trivial hv
  · exact step_read_at hp .status ha trivial hv
  · exact step_read_at hp .len ha trivial hv
  · exact step_read_at hp .gamma ha trivial hv
  · exact step_read_at hp .opx ha trivial hv
  · exact step_read_at hp .res ha trivial hv
  · have hcap : v = BitVec.ofNat 32 s.cfg.msgWords := by rw [← hv, BitVec.ofNat_toNat, BitVec.setWidth_eq]
    exact step_read_at hp .cap ha trivial hcap
  · exact step_read_at hp (.key 0) ha trivial hv
  · exact step_read_at hp (.key 1) ha trivial hv
  · exact step_read_at hp (.key 2) ha trivial hv
  · exact step_read_at hp (.key 3) ha trivial hv
  · exact step_read_at hp (.c i) ha trivial hv
  · exact step_read_at hp (.ci i) ha trivial hv
  · exact step_read_at hp .kc ha trivial hv
  · exact step_read_at hp (.msg i) ha hi hv

/-- Settles O11: the address of every clause names one location or nothing that can be written, and the equation of
`hostWrite` for it gives the effect. -/
theorem hostWriteFollowsAddressMap : Obligations.HostWriteFollowsAddressMap := by
  intro s a v rest hp
  refine ⟨fun ha => ?cmd, fun ha => ?len, fun ha => ?gamma, fun ha => ?opx, step_write_key hp 0,
    step_write_key hp 1, step_write_key hp 2, step_write_key hp 3,
    fun i hi ha hwf => step_write_msg hp hi ha hwf, fun ha => ?unwritable⟩
  case cmd =>
    rw [step_write hp, hostWrite_cmd (locate_eq_some_iff.2 ⟨ha, trivial⟩)]
    exact ⟨fun i hi => execWord_of_ok hi, fun e he => execWord_of_error he⟩
  case len =>
    rw [step_write hp, hostWrite_len (locate_eq_some_iff.2 ⟨ha, trivial⟩)]
    exact ⟨fun hle => congrArg _ (State.writeLen_of_le hle), fun hlt => congrArg _ (State.writeLen_of_lt hlt)⟩
  case gamma => exact (step_write hp).trans (hostWrite_gamma (locate_eq_some_iff.2 ⟨ha, trivial⟩))
  case opx => exact (step_write hp).trans (hostWrite_opx (locate_eq_some_iff.2 ⟨ha, trivial⟩))
  case unwritable => exact (step_write hp).trans (hostWrite_unwritable fun _ => readOnly_of_locate ha)

end Sys2Proof.Machine

namespace Sys2Proof

/-! ### Illegal command words (30_encoding.md R86) -/

/-- What the bits from `k` up of a command word say, split into `op` and the bits between `op` and bit `k`. -/
theorem div_two_pow_eq_mul_iff {k : Nat} (hk : k ≤ 24) (n c : Nat) :
    n / 2 ^ k = c * 2 ^ (24 - k) ↔ n / 2 ^ 24 = c ∧ n / 2 ^ k % 2 ^ (24 - k) = 0 := by
  have hop : n / 2 ^ 24 = n / 2 ^ k / 2 ^ (24 - k) := by
    rw [Nat.div_div_eq_div_mul, ← Nat.pow_add, Nat.add_sub_cancel' hk]
  rw [hop]
  constructor
  · intro h
    rw [h]
    exact ⟨Nat.mul_div_cancel _ (Nat.two_pow_pos _), Nat.mul_mod_left _ _⟩
  · rintro ⟨rfl, hzero⟩
    exact (Nat.div_mul_cancel (Nat.dvd_of_mod_eq_zero hzero)).symm

/-- A Word is illegal exactly if, for each of the thirteen values of `op`, it has another `op` or a nonzero
must-be-zero field: all 24 bits below `op` in format N, the upper 8 of them in format B, the upper 5 in format R. -/
theorem decode_error_iff_fields (w : Word) : (∃ e, decode w = .error e) ↔
    (∀ op ∈ [0x00, 0x01, 0x10, 0x11, 0x12, 0x40, 0x41, 0x42],
      ¬ (w.toNat / 2 ^ 24 = op ∧ w.toNat % 2 ^ 24 = 0)) ∧
    (∀ op ∈ [0x20, 0x21, 0x31, 0x32], ¬ (w.toNat / 2 ^ 24 = op ∧ w.toNat / 2 ^ 16 % 2 ^ 8 = 0)) ∧
    ¬ (w.toNat / 2 ^ 24 = 0x30 ∧ w.toNat / 2 ^ 19 % 2 ^ 5 = 0) := by
  have formatN (op : Nat) : w.toNat = op * 2 ^ 24 ↔ w.toNat / 2 ^ 24 = op ∧ w.toNat % 2 ^ 24 = 0 := by
    have h := div_two_pow_eq_mul_iff (k := 0) (by decide) w.toNat op
    rwa [Nat.pow_zero, Nat.div_one] at h
  have formatB (op : Nat) := div_two_pow_eq_mul_iff (k := 16) (by decide) w.toNat op
  have formatR (op : Nat) := div_two_pow_eq_mul_iff (k := 19) (by decide) w.toNat op
  rw [decode_error_iff_toNat]
  simp only [← formatN, ← formatB, ← formatR, List.forall_mem_cons, List.not_mem_nil,
    false_imp_iff, implies_true, and_true]
  omega

end Sys2Proof

namespace Sys2Proof.Machine

/-- An illegal Word written to `CMD` sets `E_ILLEGAL` and changes nothing else. -/
theorem step_write_illegal {s : State} {w : Word} {e : DecodeError} {rest : List Transaction}
    (he : decode w = .error e) (hp : s.pending = .write 0x00000#19 w :: rest) :
    step s = .next { s with pending := rest, errors := s.errors ||| 0b000001#6 } :=
  ((hostWriteFollowsAddressMap s _ w rest hp).1 rfl).2 e he

/-- Settles O5: an `op` outside the thirteen matches no row; an assigned one leaves the must-be-zero field of its
own format. -/
theorem illegalWordsAreExactlyThose : Obligations.IllegalWordsAreExactlyThose := by
  refine ⟨fun w => ?_, fun s w e rest he hp => step_write_illegal he hp, by decide +kernel, ⟨_, rfl⟩, ⟨_, rfl⟩, ⟨_, rfl⟩⟩
  rw [decode_error_iff_fields]
  generalize w.toNat / 2 ^ 24 = op
  by_cases hop : op ∈ [0x00, 0x01, 0x10, 0x11, 0x12, 0x20, 0x21, 0x30, 0x31, 0x32, 0x40, 0x41, 0x42]
  · simp only [List.mem_cons, List.not_mem_nil, or_false] at hop
    rcases hop with rfl | rfl | rfl | rfl | rfl | rfl | rfl | rfl | rfl | rfl | rfl | rfl | rfl <;> simp
  · simp only [List.mem_cons, List.not_mem_nil, or_false, not_or] at hop
    simp [hop]

end Sys2Proof.Machine

namespace Sys2Proof.Machine

/-! ### GammaMul and the reduction without division (40_modular_arithmetic.md R101, R103) -/

theorem gammaMul_of_ne (g : Word) {x : Word} (h : x ≠ sentinel) :
    gammaMul g x = BitVec.ofNat 32 (g.toNat * x.toNat % modulus) := if_neg h

/-- Members of the ring multiply to a member. -/
theorem gammaMul_ne_sentinel (g : Word) {x : Word} (h : x ≠ sentinel) : gammaMul g x ≠ sentinel := by
  rw [ne_sentinel_iff, gammaMul_toNat g h]
  exact Nat.mod_lt _ modulus_pos

/-- Adding the upper part of a number to its lower Word keeps its residue, since `2^32 = M + 1`. -/
theorem mod_add_div_modEq (n : Nat) : n % 2 ^ 32 + n / 2 ^ 32 ≡ n [MOD modulus] := by
  have hpow : 1 ≡ 2 ^ 32 [MOD modulus] := by decide
  calc n % 2 ^ 32 + n / 2 ^ 32 = n % 2 ^ 32 + 1 * (n / 2 ^ 32) := by rw [one_mul]
    _ ≡ n % 2 ^ 32 + 2 ^ 32 * (n / 2 ^ 32) [MOD modulus] := (hpow.mul_right _).add_left _
    _ = n := Nat.mod_add_div n (2 ^ 32)

/-- The bounds of R103 on the two sums: the second has no carry left. -/
theorem fold_bounds {p : Nat} (hp : p < 2 ^ 64) :
    p / 2 ^ 32 + p % 2 ^ 32 < 2 ^ 33 ∧
      (p / 2 ^ 32 + p % 2 ^ 32) % 2 ^ 32 + (p / 2 ^ 32 + p % 2 ^ 32) / 2 ^ 32 ≤ modulus := by
  rw [modulus_eq]
  omega

/-- The second sum of R103 is the residue of the product, except that it stands for 0 as `M`. -/
theorem mod_modulus_eq_fold {p s t : Nat} (hp : p < 2 ^ 64) (hs : s = p / 2 ^ 32 + p % 2 ^ 32)
    (ht : t = s % 2 ^ 32 + s / 2 ^ 32) : p % modulus = if t = modulus then 0 else t := by
  have hmod : t ≡ p [MOD modulus] := by
    rw [ht]
    refine (mod_add_div_modEq s).trans ?_
    rw [hs, Nat.add_comm]
    exact mod_add_div_modEq p
  have hle : t ≤ modulus := by rw [ht, hs]; exact (fold_bounds hp).2
  rw [← hmod]
  split
  · next h => rw [h, Nat.mod_self]
  · next h => exact Nat.mod_eq_of_lt (lt_of_le_of_ne hle h)

theorem toNat_mul_toNat_lt (g x : Word) : g.toNat * x.toNat < 2 ^ 64 :=
  calc g.toNat * x.toNat < 2 ^ 32 * 2 ^ 32 := Nat.mul_lt_mul'' g.isLt x.isLt
    _ = 2 ^ 64 := by decide

theorem gammaMulFold_eq_gammaMul (g x : Word) : gammaMulFold g x = gammaMul g x := by
  by_cases hx : x = sentinel
  · rw [gammaMulFold, if_pos hx, hx, gammaMul_sentinel]
  · rw [gammaMulFold, if_neg hx, gammaMul_of_ne g hx, mod_modulus_eq_fold (toNat_mul_toNat_lt g x) rfl rfl,
      apply_ite (BitVec.ofNat 32)]

/-- Settles O18: both folds keep the residue, and the bounds leave one case to correct. -/
theorem foldReductionEqualsGammaMul : Obligations.FoldReductionEqualsGammaMul := by
  refine ⟨fun g x hx => ?_, gammaMulFold_eq_gammaMul⟩
  have hp : g.toNat * x.toNat < 2 ^ 64 := toNat_mul_toNat_lt g x
  obtain ⟨hs, ht⟩ := fold_bounds hp
  exact ⟨hp, hs, ht, (gammaMulFold_eq_gammaMul g x).symm.trans (if_neg hx)⟩

/-! ### ModInverse (R104, R105) -/

theorem modInverse_one_right (a : Nat) : modInverse a 1 = some 1 := by simp [modInverse]

theorem modInverse_eq_none {a b : Nat} (h : b = 0 ∨ Nat.gcd a b ≠ 1) : modInverse a b = none := by
  by_cases hb : b = 0
  · rw [modInverse, if_pos hb]
  · rw [modInverse, if_neg hb, if_pos (h.resolve_left hb)]

/-- Normalisation, "by adding `b` if negative": a Bézout coefficient of magnitude at most `b` becomes the inverse. -/
theorem normalised_coefficient_inverts {a b : Nat} {x y : Int} (hb : 2 ≤ b) (habs : |x| ≤ b)
    (hdvd : (b : Int) ∣ x * a - 1) (hy : (if x < 0 then x + b else x) = y) :
    1 ≤ y.toNat ∧ y.toNat < b ∧ a * y.toNat % b = 1 := by
  obtain ⟨hlo, hhi⟩ := abs_le.1 habs
  have hrange : 0 ≤ y ∧ y ≤ b := by split at hy <;> omega
  have hinv : (b : Int) ∣ y * a - 1 := by
    split at hy
    · rw [← hy, show (x + b) * a - 1 = x * a - 1 + b * a by ring]
      exact dvd_add hdvd (dvd_mul_right _ _)
    · rwa [← hy]
  obtain ⟨v, rfl⟩ := Int.eq_ofNat_of_zero_le hrange.1
  rw [Int.toNat_natCast]
  have hmod : a * v % b = 1 := by
    have h : 1 ≡ v * a [MOD b] := Nat.modEq_iff_dvd.2 (by exact_mod_cast hinv)
    rw [Nat.mul_comm, ← h, Nat.mod_eq_of_lt hb]
  have hzero : v ≠ 0 := by rintro rfl; simp at hmod
  have hself : v ≠ b := by rintro rfl; simp at hmod
  omega

/-- Where `gcd(a, b) = 1` and `b >= 2`, `ModInverse` has a value: an inverse of `a` between 1 and `b - 1`. -/
theorem modInverse_spec {a b : Nat} (hb : 2 ≤ b) (hgcd : Nat.gcd a b = 1) :
    ∃ v, modInverse a b = some v ∧ 1 ≤ v ∧ v < b ∧ a * v % b = 1 := by
  have ha : 1 ≤ a := by
    by_contra h
    obtain rfl : a = 0 := by omega
    rw [Nat.gcd_zero_left] at hgcd
    omega
  obtain ⟨habs, hdvd⟩ := euclidLoop_spec (A := a) (B := b) b a b 0 1 (-1) (Or.inr rfl) ha hgcd le_rfl
    (by omega) (by omega) (by simp) (by simp)
  have hinv := normalised_coefficient_inverts (x := euclidLoop b a b 0 1) hb (by simpa using habs)
    (by simpa using hdvd) rfl
  refine ⟨_, ?_, hinv⟩
  rw [modInverse, if_neg (by omega), if_neg (by simpa using hgcd), if_neg (by omega)]

/-- A number has one inverse modulo `b` below `b`. -/
theorem inverse_unique {a b v w : Nat} (hgcd : Nat.gcd a b = 1) (hv : v < b) (hw : w < b) (hav : a * v % b = 1)
    (haw : a * w % b = 1) : w = v :=
  Nat.ModEq.eq_of_lt_of_lt (Nat.ModEq.cancel_left_of_coprime (Nat.gcd_comm a b ▸ hgcd) (haw.trans hav.symm)) hw hv

/-- `ModInverse` has no other value than the inverse below `b`. -/
theorem modInverse_eq_some {a b v : Nat} (hb : 2 ≤ b) (hgcd : Nat.gcd a b = 1) (hv : v < b) (hav : a * v % b = 1) :
    modInverse a b = some v := by
  obtain ⟨w, hw, -, hlt, haw⟩ := modInverse_spec hb hgcd
  rw [hw, inverse_unique hgcd hv hlt hav haw]

theorem modInverse_one_left {b : Nat} (hb : 1 ≤ b) : modInverse 1 b = some 1 := by
  obtain rfl | h : b = 1 ∨ 2 ≤ b := by omega
  · exact modInverse_one_right 1
  · exact modInverse_eq_some h (Nat.gcd_one_left b) h (Nat.mod_eq_of_lt h)

/-- Settles O19: the loop ends at a Bézout coefficient, and its normalised form is the one inverse below `b`. -/
theorem modInverseHasSpecifiedValue : Obligations.ModInverseHasSpecifiedValue := by
  refine ⟨modInverse_one_right, fun a b hb hgcd => ?_, fun b hb => modInverse_one_left hb,
    modInverse_eq_some (by decide) (by decide) (by decide) (by decide),
    modInverse_eq_some (by decide) (by decide) (by decide) (by decide), fun a b h => modInverse_eq_none h⟩
  obtain ⟨v, hval, hpos, hlt, hinv⟩ := modInverse_spec hb hgcd
  exact ⟨v, hval, hpos, by omega, hinv, fun w _ hw haw => inverse_unique hgcd hlt (by omega) hinv haw⟩

/-- The inverse modulo a Word is a Word. -/
theorem modInverse_word {a b : Word} (hb : 2 ≤ b.toNat) (hgcd : Nat.gcd a.toNat b.toNat = 1) :
    ∃ v : Word, modInverse a.toNat b.toNat = some v.toNat ∧ 1 ≤ v.toNat ∧ v.toNat < b.toNat ∧
      a.toNat * v.toNat % b.toNat = 1 := by
  obtain ⟨v, h⟩ := modInverse_spec hb hgcd
  have hword : (BitVec.ofNat 32 v).toNat = v := by
    rw [BitVec.toNat_ofNat, Nat.mod_eq_of_lt (h.2.2.1.trans b.isLt)]
  exact ⟨BitVec.ofNat 32 v, by rwa [hword]⟩

/-- The case of the ring: `M` is the sentinel. -/
theorem modInverse_modulus {g : Word} (hgcd : Nat.gcd g.toNat modulus = 1) :
    ∃ v : Word, modInverse g.toNat modulus = some v.toNat ∧ 1 ≤ v.toNat ∧ v.toNat < modulus ∧
      g.toNat * v.toNat % modulus = 1 :=
  modInverse_word (b := sentinel) (by decide) hgcd

/-! ### InverseGammaMul (R106, R107) -/

@[simp] theorem inverseGammaMul_sentinel (g : Word) : inverseGammaMul g sentinel = some sentinel := if_pos rfl

theorem inverseGammaMul_of_ne (g : Word) {y : Word} (hy : y ≠ sentinel) : inverseGammaMul g y =
    (modInverse g.toNat modulus).map fun v => BitVec.ofNat 32 (y.toNat * v % modulus) := if_neg hy

theorem inverseGammaMul_eq_some {g y : Word} {v : Nat} (hy : y ≠ sentinel)
    (hv : modInverse g.toNat modulus = some v) :
    inverseGammaMul g y = some (BitVec.ofNat 32 (y.toNat * v % modulus)) := by
  rw [inverseGammaMul_of_ne g hy, hv, Option.map_some]

theorem inverseGammaMul_eq_none {g y : Word} (hy : y ≠ sentinel) (hgcd : Nat.gcd g.toNat modulus ≠ 1) :
    inverseGammaMul g y = none := by
  rw [inverseGammaMul_of_ne g hy, modInverse_eq_none (Or.inr hgcd), Option.map_none]

/-- `InverseGammaMul(gamma, ·)` is `GammaMul` by the inverse of `gamma`, for every Word. -/
theorem inverseGammaMul_eq_gammaMul {g v : Word} (hv : modInverse g.toNat modulus = some v.toNat) (y : Word) :
    inverseGammaMul g y = some (gammaMul v y) := by
  by_cases hy : y = sentinel
  · rw [hy, inverseGammaMul_sentinel, gammaMul_sentinel]
  · rw [inverseGammaMul_eq_some hy hv, gammaMul_of_ne v hy, Nat.mul_comm]

/-- Settles O20: the sentinel passes through both functions; elsewhere the value is the product with the inverse. -/
theorem inverseGammaMulValue : Obligations.InverseGammaMulValue := by
  refine ⟨inverseGammaMul_sentinel, fun g y hgcd => ?_, fun g y hgcd hy => inverseGammaMul_eq_none hy hgcd⟩
  obtain ⟨v, hv, -⟩ := modInverse_modulus hgcd
  refine ⟨v.toNat, hv, fun hy => inverseGammaMul_eq_some hy hv, ?_⟩
  rw [BitVec.ofNat_toNat, BitVec.setWidth_eq]
  exact inverseGammaMul_eq_gammaMul hv y

/-- Multiplying by two Words inverse to each other gives every Word back, the sentinel too. -/
theorem gammaMul_gammaMul_of_inverse {g v : Word} (h : g.toNat * v.toNat % modulus = 1) (x : Word) :
    gammaMul g (gammaMul v x) = x := by
  by_cases hx : x = sentinel
  · rw [hx, gammaMul_sentinel, gammaMul_sentinel]
  have hvx : gammaMul v x ≠ sentinel := gammaMul_ne_sentinel v hx
  refine eq_of_modEq (gammaMul_ne_sentinel g hvx) hx ?_
  have hone : g.toNat * v.toNat ≡ 1 [MOD modulus] := h
  rw [gammaMul_toNat g hvx, gammaMul_toNat v hx]
  calc g.toNat * (v.toNat * x.toNat % modulus) % modulus
      ≡ g.toNat * (v.toNat * x.toNat % modulus) [MOD modulus] := Nat.mod_modEq _ _
    _ ≡ g.toNat * (v.toNat * x.toNat) [MOD modulus] := (Nat.mod_modEq _ _).mul_left _
    _ = g.toNat * v.toNat * x.toNat := (Nat.mul_assoc _ _ _).symm
    _ ≡ 1 * x.toNat [MOD modulus] := hone.mul_right _
    _ = x.toNat := Nat.one_mul _

/-- Settles O21: `InverseGammaMul` multiplies by the inverse, and the two factors cancel in either order. -/
theorem gammaMulRoundTrip : Obligations.GammaMulRoundTrip := by
  intro g x hgcd
  obtain ⟨v, hv, -, -, hinv⟩ := modInverse_modulus hgcd
  have hinv' : v.toNat * g.toNat % modulus = 1 := by rwa [Nat.mul_comm]
  rw [inverseGammaMul_eq_gammaMul hv, inverseGammaMul_eq_gammaMul hv, Option.map_some,
    gammaMul_gammaMul_of_inverse hinv, gammaMul_gammaMul_of_inverse hinv']
  exact ⟨rfl, rfl⟩

/-! ### The commands GMUL, GINV and MINV (R108 to R110), by the value of their function -/

section Commands

variable {s : State}

theorem exec_gmul (s : State) : exec .gmul s = .next (s.setRes (gammaMul s.gamma s.opx)) := rfl

theorem exec_ginv_some {v : Word} (h : inverseGammaMul s.gamma s.opx = some v) :
    exec .ginv s = .next (s.setRes v) := by
  rw [exec, execGinv, h]

theorem exec_ginv_none (h : inverseGammaMul s.gamma s.opx = none) : exec .ginv s = .next (s.raise .noinv) := by
  rw [exec, execGinv, h]

theorem exec_minv_some {v : Word} (h : modInverse s.gamma.toNat s.opx.toNat = some v.toNat) :
    exec .minv s = .next (s.setRes v) := by
  simp only [exec, execMinv, h, BitVec.ofNat_toNat, BitVec.setWidth_eq]

theorem exec_minv_none (h : modInverse s.gamma.toNat s.opx.toNat = none) : exec .minv s = .next (s.raise .noinv) := by
  rw [exec, execMinv, h]

end Commands

/-- Settles O22: `GMUL` stores `GammaMul(GAMMA, OPX)`, whose definition the statement writes out. -/
theorem gmulWritesProduct : Obligations.GmulWritesProduct :=
  ⟨rfl, exec_gmul⟩

/-- Settles O23: `GINV` follows `InverseGammaMul`, in its three cases. -/
theorem ginvWritesQuotientOrRaises : Obligations.GinvWritesQuotientOrRaises := by
  refine ⟨rfl, fun s => ⟨fun hopx => ?sentinel, fun hopx hgcd => ?noInverse, fun hopx hgcd => ?quotient⟩⟩
  case sentinel =>
    have hvalue : inverseGammaMul s.gamma s.opx = some sentinel := by
      rw [hopx]
      exact inverseGammaMul_sentinel s.gamma
    exact exec_ginv_some hvalue
  case noInverse => exact exec_ginv_none (inverseGammaMul_eq_none hopx hgcd)
  case quotient =>
    obtain ⟨v, hv, hpos, hlt, hinv⟩ := modInverse_modulus hgcd
    exact ⟨v.toNat, hpos, Nat.le_sub_one_of_lt hlt, hinv, exec_ginv_some (inverseGammaMul_eq_some hopx hv)⟩

/-- Settles O24: `MINV` follows `ModInverse`; a modulus of at least 2 keeps the inverse a Word. -/
theorem minvWritesInverseOrRaises : Obligations.MinvWritesInverseOrRaises := by
  refine ⟨rfl, fun s => ⟨fun h => ?noInverse, fun hopx => ?one, fun hopx hgcd => ?inverse⟩⟩
  case noInverse =>
    have houtside : s.opx.toNat = 0 ∨ Nat.gcd s.gamma.toNat s.opx.toNat ≠ 1 := h.imp_left (congrArg BitVec.toNat)
    exact exec_minv_none (modInverse_eq_none houtside)
  case one =>
    have hvalue : modInverse s.gamma.toNat s.opx.toNat = some (1#32).toNat := by
      rw [hopx]
      exact modInverse_one_right _
    exact exec_minv_some hvalue
  case inverse =>
    obtain ⟨v, hv, hpos, hlt, hinv⟩ := modInverse_word hopx hgcd
    exact ⟨v, hpos, hlt, hinv, exec_minv_some hv⟩

end Sys2Proof.Machine

namespace Sys2Proof

/-! ### Command words of format B (30_encoding.md R81, R90) -/

/-- The upper half of the word `p + blk` is `p`'s, the lower half is `blk`. -/
theorem toNat_add_blk {p : Word} (hp : p.toNat % 65536 = 0) {blk : Nat} (hblk : blk < 65536) :
    (p + BitVec.ofNat 32 blk).toNat / 65536 = p.toNat / 65536 ∧
      (p + BitVec.ofNat 32 blk).toNat % 65536 = blk := by
  have := p.isLt
  rw [BitVec.toNat_add, BitVec.toNat_ofNat]
  omega

theorem decode_eq_xfrm {w : Word} (h : w.toNat / 65536 = 0x2000) : decode w = .ok (.xfrm (w.toNat % 65536)) := by
  rw [decode_ok_iff, matchRow_opcodeRows]
  simp only [ite_some_eq_some, reduceCtorEq, false_and, false_or, true_and]
  omega

theorem decode_eq_ixfrm {w : Word} (h : w.toNat / 65536 = 0x2100) : decode w = .ok (.ixfrm (w.toNat % 65536)) := by
  rw [decode_ok_iff, matchRow_opcodeRows]
  simp only [ite_some_eq_some, reduceCtorEq, false_and, false_or, true_and]
  omega

theorem decode_xfrm_word (blk : Nat) (hblk : blk < 65536) :
    decode (0x20000000#32 + BitVec.ofNat 32 blk) = .ok (.xfrm blk) := by
  obtain ⟨hop, hfield⟩ := toNat_add_blk (p := 0x20000000#32) (by decide) hblk
  rw [decode_eq_xfrm hop, hfield]

theorem decode_ixfrm_word (blk : Nat) (hblk : blk < 65536) :
    decode (0x21000000#32 + BitVec.ofNat 32 blk) = .ok (.ixfrm blk) := by
  obtain ⟨hop, hfield⟩ := toNat_add_blk (p := 0x21000000#32) (by decide) hblk
  rw [decode_eq_ixfrm hop, hfield]

end Sys2Proof

namespace Sys2Proof.Machine

/-! ### The constants (10_state.md R29, R30) -/

theorem gcd_gammaMul {g x : Word} (hg : Nat.gcd g.toNat modulus = 1) (hx : Nat.gcd x.toNat modulus = 1) :
    Nat.gcd (gammaMul g x).toNat modulus = 1 := by
  have hne : x ≠ sentinel := by rintro rfl; exact absurd hx (by decide)
  have hmod : (gammaMul g x).toNat ≡ g.toNat * x.toNat [MOD modulus] := by
    rw [gammaMul_toNat g hne]
    exact Nat.mod_modEq _ _
  exact hmod.gcd_eq.trans (Nat.Coprime.mul_left hg hx)

/-- Every round constant is a unit of the ring: `C0` is, and so are 2, 8 and 128. -/
theorem gcd_roundConstant (cfg : Config) (i : Fin 4) : Nat.gcd (roundConstant cfg i).toNat modulus = 1 := by
  match i with
  | 0 => exact cfg.c0_coprime
  | 1 => exact gcd_gammaMul cfg.c0_coprime (by decide)
  | 2 => exact gcd_gammaMul cfg.c0_coprime (by decide)
  | 3 => exact gcd_gammaMul cfg.c0_coprime (by decide)

/-- `CI[i]` is the value of `ModInverse`, so the default in its definition is never taken. -/
theorem inverseConstant_spec (cfg : Config) (i : Fin 4) :
    modInverse (roundConstant cfg i).toNat modulus = some (inverseConstant cfg i).toNat ∧
      1 ≤ (inverseConstant cfg i).toNat ∧ (inverseConstant cfg i).toNat < modulus ∧
      (roundConstant cfg i).toNat * (inverseConstant cfg i).toNat % modulus = 1 := by
  obtain ⟨v, hv⟩ := modInverse_modulus (gcd_roundConstant cfg i)
  have hci : inverseConstant cfg i = v := by
    rw [inverseConstant, hv.1, Option.getD_some, BitVec.ofNat_toNat, BitVec.setWidth_eq]
  rwa [hci]

@[simp] theorem gammaMul_roundConstant_inverse (cfg : Config) (i : Fin 4) (x : Word) :
    gammaMul (roundConstant cfg i) (gammaMul (inverseConstant cfg i) x) = x := by
  obtain ⟨-, -, -, hinv⟩ := inverseConstant_spec cfg i
  exact gammaMul_gammaMul_of_inverse hinv x

@[simp] theorem gammaMul_inverseConstant_round (cfg : Config) (i : Fin 4) (x : Word) :
    gammaMul (inverseConstant cfg i) (gammaMul (roundConstant cfg i) x) = x := by
  obtain ⟨-, -, -, hinv⟩ := inverseConstant_spec cfg i
  exact gammaMul_gammaMul_of_inverse (Nat.mul_comm _ _ ▸ hinv) x

/-! ### The three stages and their inverses (41_round_transform.md R131 to R138) -/

theorem xor_xor_cancel_right (x y : Word) : x ^^^ y ^^^ y = x := by
  rw [BitVec.xor_assoc, BitVec.xor_self, BitVec.xor_zero]

@[simp] theorem s1inv_s1 (cfg : Config) (b : Block) : s1inv cfg (s1 cfg b) = b := by
  simp only [s1, s1inv, gammaMul_inverseConstant_round]

@[simp] theorem s1_s1inv (cfg : Config) (b : Block) : s1 cfg (s1inv cfg b) = b := by
  simp only [s1, s1inv, gammaMul_roundConstant_inverse]

section StageTwo

variable {kc : Word} {b : Block}

/-! Case A, B and C of R132. -/

theorem s2_of_x0_odd (h0 : b.x0[0] = true) : s2 kc b = { b with x0 := b.x0 ^^^ kc } := if_pos h0

theorem s2_of_even_even (h0 : b.x0[0] = false) (h3 : b.x3[0] = false) :
    s2 kc b = { b with x3 := b.x3 ^^^ kc } := by
  rw [s2, if_neg (by simp [h0]), if_neg (by simp [h3])]

theorem s2_of_even_odd (h0 : b.x0[0] = false) (h3 : b.x3[0] = true) : s2 kc b = b := by
  rw [s2, if_neg (by simp [h0]), if_pos h3]

/-- An even constant keeps the bit its Word is tested by, so the second application takes the case of the first. -/
theorem s2_s2 (hkc : kc[0] = false) (b : Block) : s2 kc (s2 kc b) = b := by
  have keepsBit (x : Word) : (x ^^^ kc)[0] = x[0] := by rw [BitVec.getElem_xor, hkc, Bool.xor_false]
  cases h0 : b.x0[0] with
  | true => rw [s2_of_x0_odd h0, s2_of_x0_odd ((keepsBit _).trans h0), xor_xor_cancel_right]
  | false =>
    cases h3 : b.x3[0] with
    | true => rw [s2_of_even_odd h0 h3, s2_of_even_odd h0 h3]
    | false =>
      rw [s2_of_even_even h0 h3, s2_of_even_even (b := { b with x3 := b.x3 ^^^ kc }) h0 ((keepsBit _).trans h3),
        xor_xor_cancel_right]

/-- The block of R138: an odd constant makes `x0` even, and the second application changes `x3`. -/
theorem s2_s2_of_odd (hkc : kc[0] = true) :
    s2 kc (s2 kc ⟨1#32, 0#32, 0#32, 0#32⟩) = ⟨1#32 ^^^ kc, 0#32, 0#32, kc⟩ := by
  have hx0 : (1#32 ^^^ kc)[0] = false := by rw [BitVec.getElem_xor, hkc]; rfl
  have hfirst : s2 kc ⟨1#32, 0#32, 0#32, 0#32⟩ = ⟨1#32 ^^^ kc, 0#32, 0#32, 0#32⟩ := s2_of_x0_odd rfl
  have hx3 : (0#32)[0] = false := rfl
  rw [hfirst, s2_of_even_even hx0 hx3, BitVec.zero_xor]

end StageTwo

/-- A Word of `S3(S3(s))`: the Word itself stands in all three neighbouring outputs, each other Word in two. -/
theorem xor_of_neighbours (x2 x3 x0 x1 : Word) :
    x2 ^^^ x3 ^^^ x0 ^^^ (x3 ^^^ x0 ^^^ x1) ^^^ (x0 ^^^ x1 ^^^ x2) = x0 := by
  have bitwise : ∀ p q r t : Bool, ((((p ^^ q) ^^ r) ^^ ((q ^^ r) ^^ t)) ^^ ((r ^^ t) ^^ p)) = r := by decide
  refine BitVec.eq_of_getElem_eq fun i hi => ?_
  simp only [BitVec.getElem_xor, bitwise]

@[simp] theorem s3_s3 (b : Block) : s3 (s3 b) = b := by
  simp only [s3, xor_of_neighbours]

/-- Settles O30: `S3` is its own inverse Word by Word. -/
theorem stageThreeInvolution : Obligations.StageThreeInvolution := s3_s3

/-- Settles O31: an even constant keeps the tested bits; for an odd one the block `(1, 0, 0, 0)` does not come back. -/
theorem stageTwoInvolutionIffEven : Obligations.StageTwoInvolutionIffEven := by
  refine fun kc => ⟨fun hinv => ?_, s2_s2⟩
  by_contra hodd
  rw [Bool.not_eq_false] at hodd
  have hback := (s2_s2_of_odd hodd).symm.trans (hinv _)
  have hzero : kc = 0#32 := congrArg Block.x3 hback
  rw [hzero] at hodd
  exact absurd hodd (by decide)

/-! ### Transform and InverseTransform (R134 to R136) -/

@[simp] theorem inverseTransform_transform (cfg : Config) (b : Block) :
    inverseTransform cfg (transform cfg b) = b := by
  rw [inverseTransform, transform, s3_s3, s2_s2 cfg.kc_even, s1inv_s1]

@[simp] theorem transform_inverseTransform (cfg : Config) (b : Block) :
    transform cfg (inverseTransform cfg b) = b := by
  rw [inverseTransform, transform, s1_s1inv, s2_s2 cfg.kc_even, s3_s3]

/-- Settles O32: each stage is undone in reverse order. -/
theorem transformRoundTrip : Obligations.TransformRoundTrip := fun cfg =>
  ⟨inverseTransform_transform cfg, transform_inverseTransform cfg,
    Function.bijective_iff_has_inverse.2
      ⟨inverseTransform cfg, inverseTransform_transform cfg, transform_inverseTransform cfg⟩⟩

/-! ### The all-zero and the all-ones block (R141) -/

@[simp] theorem gammaMul_zero (g : Word) : gammaMul g 0#32 = 0#32 := by
  rw [gammaMul_of_ne g (by decide), BitVec.toNat_zero, Nat.mul_zero, Nat.zero_mod]

theorem s1_zeros (cfg : Config) : s1 cfg ⟨0#32, 0#32, 0#32, 0#32⟩ = ⟨0#32, 0#32, 0#32, 0#32⟩ := by
  simp only [s1, gammaMul_zero]

theorem s1_sentinels (cfg : Config) :
    s1 cfg ⟨sentinel, sentinel, sentinel, sentinel⟩ = ⟨sentinel, sentinel, sentinel, sentinel⟩ := by
  simp only [s1, gammaMul_sentinel]

theorem s2_zeros (kc : Word) : s2 kc ⟨0#32, 0#32, 0#32, 0#32⟩ = ⟨0#32, 0#32, 0#32, kc⟩ := by
  rw [s2_of_even_even rfl rfl, BitVec.zero_xor]

theorem s2_sentinels (kc : Word) :
    s2 kc ⟨sentinel, sentinel, sentinel, sentinel⟩ = ⟨sentinel ^^^ kc, sentinel, sentinel, sentinel⟩ :=
  s2_of_x0_odd rfl

theorem transform_zeros (cfg : Config) :
    transform cfg ⟨0#32, 0#32, 0#32, 0#32⟩ = ⟨cfg.kc, 0#32, cfg.kc, cfg.kc⟩ := by
  rw [transform, s1_zeros, s2_zeros]
  simp only [s3, BitVec.zero_xor, BitVec.xor_zero]

theorem transform_sentinels (cfg : Config) : transform cfg ⟨sentinel, sentinel, sentinel, sentinel⟩ =
    ⟨sentinel ^^^ cfg.kc, sentinel ^^^ cfg.kc, sentinel, sentinel ^^^ cfg.kc⟩ := by
  rw [transform, s1_sentinels, s2_sentinels]
  simp only [s3, ← BitVec.xor_assoc, BitVec.xor_self, BitVec.zero_xor, xor_xor_cancel_right,
    BitVec.xor_comm cfg.kc sentinel]

/-- Settles O33: the stages in order; the first Word of either result differs from its input by `KC`. -/
theorem transformOfZeroAndOnes : Obligations.TransformOfZeroAndOnes := by
  refine fun cfg => ⟨s1_zeros cfg, s2_zeros cfg.kc, s1_sentinels cfg, s2_sentinels cfg.kc, transform_zeros cfg,
    transform_sentinels cfg, fun hkc => ⟨fun hfix => hkc ?zeros, fun hfix => hkc ?ones⟩⟩
  case zeros => exact congrArg Block.x0 ((transform_zeros cfg).symm.trans hfix)
  case ones =>
    have hx0 : sentinel ^^^ cfg.kc = sentinel ^^^ 0#32 :=
      (congrArg Block.x0 ((transform_sentinels cfg).symm.trans hfix)).trans (BitVec.xor_zero).symm
    exact (BitVec.xor_right_inj _).1 hx0

/-! ### The commands XFRM and IXFRM (R139, R140) -/

section BlockCommands

variable {s : State}

theorem State.readMsg_writeBlock_of_outside (hwf : s.msg.wf) {b : Nat} (y : Block) {i : Nat}
    (hi : i < 4 * b ∨ 4 * b + 3 < i) : (s.writeBlock b y).readMsg i = s.readMsg i := by
  rw [State.readMsg_writeBlock hwf, if_neg (by omega)]

/-- A command that replaces its block by `y`: the four Words become `y`'s, every other Word and the rest of the state
stay. -/
theorem exec_writeBlock_effect (hwf : s.msg.wf) {i : Instr} {b : Nat} {y : Block}
    (h : exec i s = .next (s.writeBlock b y)) :
    ∃ t, exec i s = .next t ∧ t = { s with msg := t.msg } ∧ t.readBlock b = y ∧
      ∀ j, j < 4 * b ∨ 4 * b + 3 < j → t.readMsg j = s.readMsg j :=
  ⟨s.writeBlock b y, h, rfl, State.readBlock_writeBlock hwf b y,
    fun _ hj => State.readMsg_writeBlock_of_outside hwf y hj⟩

/-- Two commands that replace one block by functions of it, the second undoing the first, restore the state. -/
theorem execAll_undo_block (hwf : s.msg.wf) {i j : Instr} {b : Nat} {f g : Block → Block} {t : State}
    (ht : t = s.writeBlock b (f (s.readBlock b))) (hi : exec i s = .next t)
    (hj : exec j t = .next (t.writeBlock b (g (t.readBlock b)))) (hundo : ∀ x, g (f x) = x) :
    execAll [i, j] s = .next s := by
  have hback : t.writeBlock b (g (t.readBlock b)) = s := by
    rw [ht, State.readBlock_writeBlock hwf, State.writeBlock_writeBlock hwf, hundo, State.writeBlock_readBlock hwf]
  simp only [execAll, hi, hj, hback]

end BlockCommands

/-- Settles O34: inside the buffer `XFRM` writes one block, the Transform of the old one, and `IXFRM` undoes it. -/
theorem xfrmTransformsItsBlock : Obligations.XfrmTransformsItsBlock := by
  refine ⟨decode_xfrm_word, fun s blk hwf => ⟨exec_xfrm_outside s, fun hin => ⟨?effect, ?undone⟩⟩⟩
  case effect =>
    obtain ⟨t, ht, hframe, hblock, hother⟩ := exec_writeBlock_effect hwf (exec_xfrm_inside s hin)
    refine ⟨t, ht, hframe, hblock, hother, fun hzero => ?_⟩
    rw [hblock, hzero, transform_zeros]
  case undone =>
    exact execAll_undo_block hwf rfl (exec_xfrm_inside s hin) (exec_ixfrm_inside _ hin)
      (inverseTransform_transform s.cfg)

/-- Settles O35: `IXFRM` writes one block, the InverseTransform of the old one, and `XFRM` undoes it; `(KC, 0, KC, KC)` is
the Transform of zeros. -/
theorem ixfrmInverseTransformsItsBlock : Obligations.IxfrmInverseTransformsItsBlock := by
  refine ⟨decode_ixfrm_word, fun s blk hwf => ⟨exec_ixfrm_outside s, fun hin => ⟨?effect, ?undone⟩⟩⟩
  case effect =>
    obtain ⟨t, ht, hframe, hblock, hother⟩ := exec_writeBlock_effect hwf (exec_ixfrm_inside s hin)
    refine ⟨t, ht, hframe, hblock, hother, fun hkc => ?_⟩
    rw [hblock, hkc, ← transform_zeros, inverseTransform_transform]
  case undone =>
    exact execAll_undo_block hwf rfl (exec_ixfrm_inside s hin) (exec_xfrm_inside _ hin)
      (transform_inverseTransform s.cfg)

end Sys2Proof.Machine

namespace Sys2Proof

/-! ### Command words of formats R and B (30_encoding.md R81, R90) -/

/-- The rows of `KXOR`, `ENCB` and `DECB` in the opcode map. -/
theorem decode_of_driverRow (w : Word) :
    (w.toNat / 524288 = 0x600 → decode w = .ok (.kxor (w.toNat % 65536) (w.toNat / 65536 % 8))) ∧
    (w.toNat / 65536 = 0x3100 → decode w = .ok (.encb (w.toNat % 65536))) ∧
    (w.toNat / 65536 = 0x3200 → decode w = .ok (.decb (w.toNat % 65536))) := by
  simp only [decode_ok_iff, matchRow_opcodeRows, ite_some_eq_some, reduceCtorEq, false_and, false_or, true_and]
  omega

theorem decode_kxor_word (blk r : Nat) (hblk : blk < 65536) (hr : r < 8) :
    decode (0x30000000#32 + BitVec.ofNat 32 (r * 65536) + BitVec.ofNat 32 blk) = .ok (.kxor blk r) := by
  have hp : (0x30000000#32 + BitVec.ofNat 32 (r * 65536)).toNat = 0x30000000 + r * 65536 := by
    rw [BitVec.toNat_add, BitVec.toNat_ofNat, BitVec.toNat_ofNat]
    omega
  obtain ⟨hupper, hblock⟩ := toNat_add_blk (p := 0x30000000#32 + BitVec.ofNat 32 (r * 65536)) (by omega) hblk
  have hround : (0x30000000 + r * 65536) / 65536 % 8 = r := by omega
  rw [(decode_of_driverRow _).1 (by omega), hblock, hupper, hp, hround]

theorem decode_encb_word (blk : Nat) (hblk : blk < 65536) :
    decode (0x31000000#32 + BitVec.ofNat 32 blk) = .ok (.encb blk) := by
  obtain ⟨hop, hfield⟩ := toNat_add_blk (p := 0x31000000#32) (by decide) hblk
  rw [(decode_of_driverRow _).2.1 hop, hfield]

theorem decode_decb_word (blk : Nat) (hblk : blk < 65536) :
    decode (0x32000000#32 + BitVec.ofNat 32 blk) = .ok (.decb blk) := by
  obtain ⟨hop, hfield⟩ := toNat_add_blk (p := 0x32000000#32) (by decide) hblk
  rw [(decode_of_driverRow _).2.2 hop, hfield]

end Sys2Proof

namespace Sys2Proof.Machine

/-! ### Padding (42_block_driver.md R150) -/

theorem add_padAmount_mod (n : Nat) : (n + padAmount n) % 4 = 0 := by
  unfold padAmount
  omega

@[simp] theorem padAmount_of_aligned {n : Nat} (h : n % 4 = 0) : padAmount n = 0 := by
  rw [padAmount, h]

theorem length_pad_mod (m : List Word) : (pad m).length % 4 = 0 := by
  rw [pad, List.length_append, List.length_replicate]
  exact add_padAmount_mod m.length

theorem pad_of_aligned {m : List Word} (h : m.length % 4 = 0) : pad m = m := by
  rw [pad, padAmount_of_aligned h, List.replicate_zero, List.append_nil]

/-- Settles O36: the number of zero Words is computed from the residue of the length, and a padded list is aligned. -/
theorem paddingLaw : Obligations.PaddingLaw := by
  refine ⟨rfl, fun m => ⟨length_pad_mod m, pad_of_aligned, fun h => ?one, fun h => ?two, fun h => ?three,
    pad_of_aligned (length_pad_mod m)⟩⟩
  all_goals
    rw [pad, padAmount, h]
    rfl

/-! ### One block (R151 to R154) -/

/-- `KeyMix` uses the round only modulo 4. -/
theorem keyMix_mod (b : Block) (k : Key) (r : Nat) : keyMix b k (r % 4) = keyMix b k r := by
  have hj (n : Nat) : Fin.ofNat 4 (n + r % 4) = Fin.ofNat 4 (n + r) := Fin.ext (Nat.add_mod_mod n r 4)
  simp only [keyMix, hj]

/-- Each of the four rotations of the indices names every index once. -/
theorem keyMix_eq (b : Block) (k : Key) (r : Nat) :
    keyMix b k r = ⟨b.x0 ^^^ k.x0, b.x1 ^^^ k.x1, b.x2 ^^^ k.x2, b.x3 ^^^ k.x3⟩ := by
  rw [← keyMix_mod]
  have hr : r % 4 < 4 := Nat.mod_lt r (by decide)
  generalize r % 4 = q at hr
  match q, hr with
  | 0, _ => rfl
  | 1, _ => rfl
  | 2, _ => rfl
  | 3, _ => rfl

@[simp] theorem keyMix_keyMix (b : Block) (k : Key) (r r' : Nat) : keyMix (keyMix b k r) k r' = b := by
  simp only [keyMix_eq, xor_xor_cancel_right]

/-- Settles O37: the net effect does not mention the round, and XORing a key Word twice cancels. -/
theorem keyMixNetEffect : Obligations.KeyMixNetEffect := ⟨keyMix_eq, keyMix_keyMix⟩

/-- Settles O38: the fold over the six round indices, unrolled. -/
theorem encryptBlockIsSixRounds : Obligations.EncryptBlockIsSixRounds := fun _ _ _ => rfl

theorem decryptBlock_rounds (cfg : Config) (k : Key) (b : Block) :
    decryptBlock cfg k b = keyMix (inverseTransform cfg (keyMix (inverseTransform cfg (keyMix (inverseTransform cfg
      (keyMix (inverseTransform cfg (keyMix (inverseTransform cfg (keyMix (inverseTransform cfg b) k 0)) k 1)) k 2)) k 3))
      k 4)) k 5 := rfl

/-- The last round of encryption and the first of decryption cancel, although their indices differ. -/
@[simp] theorem decryptBlock_encryptBlock (cfg : Config) (k : Key) (b : Block) :
    decryptBlock cfg k (encryptBlock cfg k b) = b := by
  simp only [encryptBlockIsSixRounds cfg k, decryptBlock_rounds, inverseTransform_transform, keyMix_keyMix]

@[simp] theorem encryptBlock_decryptBlock (cfg : Config) (k : Key) (b : Block) :
    encryptBlock cfg k (decryptBlock cfg k b) = b := by
  simp only [encryptBlockIsSixRounds cfg k, decryptBlock_rounds, transform_inverseTransform, keyMix_keyMix]

/-- Settles O39: the rounds cancel pairwise from the inside, and `KeyMix` is the same in every round. -/
theorem decryptBlockUndoesEncryptBlock : Obligations.DecryptBlockUndoesEncryptBlock := by
  refine fun cfg k b => ⟨decryptBlock_rounds cfg k b, ?descending, decryptBlock_encryptBlock cfg k b,
    encryptBlock_decryptBlock cfg k b⟩
  case descending => simp only [decryptBlock_rounds, List.foldl_cons, List.foldl_nil, keyMix_eq]

/-! ### Whole messages (R155 to R157) -/

/-- A list of whole blocks is mapped block by block. -/
theorem mapWords_flatMap_toList (f : Block → Block) (bs : List Block) :
    mapWords f (bs.flatMap Block.toList) = (bs.map f).flatMap Block.toList := by
  induction bs with
  | nil => rfl
  | cons b bs ih =>
    rw [List.map_cons, List.flatMap_cons, List.flatMap_cons, ← ih]
    rfl

theorem length_mapWords (f : Block → Block) (m : List Word) : (mapWords f m).length = m.length := by
  fun_induction mapWords f m with
  | case1 x0 x1 x2 x3 rest ih =>
    simp only [Block.toList, List.length_append, List.length_cons, List.length_nil, ih]
    omega
  | case2 short => rfl

theorem mapWords_mapWords_of_leftInverse {f g : Block → Block} (h : Function.LeftInverse g f) (m : List Word) :
    mapWords g (mapWords f m) = m := by
  fun_induction mapWords f m with
  | case1 x0 x1 x2 x3 rest ih =>
    change (g (f ⟨x0, x1, x2, x3⟩)).toList ++ mapWords g (mapWords f rest) = _
    rw [h, ih]
    rfl
  | case2 short hshort =>
    rw [mapWords]
    exact hshort

theorem decrypt_of_aligned (cfg : Config) (k : Key) {m : List Word} (h : m.length % 4 = 0) :
    decrypt cfg k m = mapWords (decryptBlock cfg k) m := by
  rw [decrypt, pad_of_aligned h]

/-- Settles O41: a ciphertext is aligned, so it is not padded again, and its blocks decrypt to those of the padded
message. -/
theorem decryptOfEncryptIsPad : Obligations.DecryptOfEncryptIsPad := by
  intro cfg k m
  have haligned : (encrypt cfg k m).length % 4 = 0 := by
    rw [encrypt, length_mapWords]
    exact length_pad_mod m
  rw [decrypt_of_aligned cfg k haligned, encrypt]
  exact mapWords_mapWords_of_leftInverse (decryptBlock_encryptBlock cfg k) (pad m)

/-! ### Block commands (R159 to R161) -/

section WrittenBlock

variable {s : State} {b : Nat}

/-! The micro commands on a block already replaced by `y`. -/

theorem exec_kxor_writeBlock (hwf : s.msg.wf) (hin : 4 * b + 3 < s.cfg.msgWords) (hk : s.kv = 0b1111#4) (y : Block)
    {r : Nat} (hr : r ≤ 5) :
    exec (.kxor b r) (s.writeBlock b y) = .next (s.writeBlock b (keyMix y s.key r)) := by
  rw [exec_kxor_inside (s.writeBlock b y) hr hin hk, State.readBlock_writeBlock hwf, State.writeBlock_writeBlock hwf,
    State.writeBlock_key]

theorem exec_xfrm_writeBlock (hwf : s.msg.wf) (hin : 4 * b + 3 < s.cfg.msgWords) (y : Block) :
    exec (.xfrm b) (s.writeBlock b y) = .next (s.writeBlock b (transform s.cfg y)) := by
  rw [exec_xfrm_inside (s.writeBlock b y) hin, State.readBlock_writeBlock hwf, State.writeBlock_writeBlock hwf,
    State.writeBlock_cfg]

theorem exec_ixfrm_writeBlock (hwf : s.msg.wf) (hin : 4 * b + 3 < s.cfg.msgWords) (y : Block) :
    exec (.ixfrm b) (s.writeBlock b y) = .next (s.writeBlock b (inverseTransform s.cfg y)) := by
  rw [exec_ixfrm_inside (s.writeBlock b y) hin, State.readBlock_writeBlock hwf, State.writeBlock_writeBlock hwf,
    State.writeBlock_cfg]

end WrittenBlock

/-- Settles O42: the checks in order; inside the buffer and with a key one block is written, its Words XORed with the key's
(`keyMix_eq`), and a second `KXOR` writes the old block back. -/
theorem kxorMixesKeyIntoItsBlock : Obligations.KxorMixesKeyIntoItsBlock := by
  refine ⟨decode_kxor_word, fun s blk r hwf => ⟨exec_kxor_outside s, exec_kxor_noKey s, fun hr hin hk => ?mixed⟩⟩
  case mixed =>
    obtain ⟨hx0, hx1, hx2, hx3⟩ := Block.mk.inj
      ((State.readBlock_writeBlock hwf blk (keyMix (s.readBlock blk) s.key r)).trans (keyMix_eq _ _ r))
    refine ⟨_, exec_kxor_inside s hr hin hk, rfl, hx0, hx1, hx2, hx3,
      fun i hi => State.readMsg_writeBlock_of_outside hwf _ hi, fun r' hr' => ?_⟩
    rw [exec_kxor_writeBlock hwf hin hk _ hr', keyMix_keyMix, State.writeBlock_readBlock hwf]

/-- Settles O43: the checks in order; inside the buffer and with a key one block is written. -/
theorem encbEncryptsItsBlock : Obligations.EncbEncryptsItsBlock :=
  ⟨decode_encb_word, fun s _ hwf => ⟨exec_encb_outside s, exec_encb_noKey s,
    fun hin hk => exec_writeBlock_effect hwf (exec_encb_inside s hin hk)⟩⟩

/-- Settles O44: as for `ENCB`; after it `DECB` undoes the block function on the same block. -/
theorem decbDecryptsItsBlock : Obligations.DecbDecryptsItsBlock :=
  ⟨decode_decb_word, fun s _ hwf => ⟨exec_decb_outside s, exec_decb_noKey s,
    fun hin hk => ⟨exec_writeBlock_effect hwf (exec_decb_inside s hin hk),
      execAll_undo_block hwf rfl (exec_encb_inside s hin hk) (exec_decb_inside _ hin hk)
        (decryptBlock_encryptBlock s.cfg s.key)⟩⟩⟩

/-! ### The Message as blocks (10_state.md R24, R35) -/

namespace Memory

theorem readBlock_writeBlock_of_ne {m : Memory} (hm : m.wf) {b c : Nat} (h : b ≠ c) (y : Block) :
    (m.writeBlock c y).readBlock b = m.readBlock b :=
  readBlock_congr fun i hi => by rw [read_writeBlock hm, if_neg (by omega)]

theorem readBlock_mapBlocks {m : Memory} (hm : m.wf) (f : Block → Block) {n b : Nat} (hb : b < n) :
    (m.mapBlocks f n).readBlock b = f (m.readBlock b) := by
  induction n with
  | zero => omega
  | succ k ih =>
    simp only [Memory.mapBlocks]
    by_cases h : b = k
    · subst h
      rw [readBlock_writeBlock (wf_mapBlocks hm f b)]
      congr 1
      exact readBlock_congr fun i hi => by rw [read_mapBlocks hm, if_neg (by omega)]
    · rw [readBlock_writeBlock_of_ne (wf_mapBlocks hm f k) h, ih (by omega)]

/-- The first `4 * n` Words of a buffer are its first `n` blocks. -/
theorem map_read_range (m : Memory) (n : Nat) :
    (List.range (4 * n)).map m.read = ((List.range n).map m.readBlock).flatMap Block.toList := by
  induction n with
  | zero => rfl
  | succ k ih =>
    rw [List.range_succ, List.map_append, List.flatMap_append, ← ih, Nat.mul_succ, List.range_add, List.map_append]
    rfl

end Memory

section Message

variable {s : State}

/-- An aligned Message is its blocks in a row. -/
theorem State.message_eq_blocks (hl : s.len.toNat % 4 = 0) :
    s.message = ((List.range (s.len.toNat / 4)).map s.readBlock).flatMap Block.toList := by
  have hlen : 4 * (s.len.toNat / 4) = s.len.toNat := by omega
  have hblocks := Memory.map_read_range s.msg (s.len.toNat / 4)
  rwa [hlen] at hblocks

/-- Replacing every block of an aligned Message maps the block function over it. -/
theorem State.message_mapMessage (hwf : s.msg.wf) (hl : s.len.toNat % 4 = 0) (f : Block → Block) :
    (s.mapMessage f).message = mapWords f s.message := by
  rw [State.message_eq_blocks hl, mapWords_flatMap_toList, List.map_map, State.message_eq_blocks (s := s.mapMessage f) hl]
  congr 1
  exact List.map_congr_left fun b hb => Memory.readBlock_mapBlocks hwf f (List.mem_range.1 hb)

theorem State.length_message (s : State) : s.message.length = s.len.toNat := by
  rw [State.message, List.length_map, List.length_range]

/-- Words beyond the Message are left alone. -/
theorem State.readMsg_mapMessage_of_le (hwf : s.msg.wf) (hl : s.len.toNat % 4 = 0) (f : Block → Block) {i : Nat}
    (hi : s.len.toNat ≤ i) : (s.mapMessage f).readMsg i = s.readMsg i := by
  rw [State.readMsg_mapMessage hwf, if_neg (by omega)]

theorem State.mapMessage_of_len_zero (h : s.len = 0#32) (f : Block → Block) : s.mapMessage f = s := by
  rw [State.mapMessage, h]
  rfl

/-! ### PAD (R162) -/

/-- The padded length stays within the buffer, whose depth is a multiple of 4. -/
theorem State.paddedLength_le (h : s.Inv) : s.len.toNat + padAmount s.len.toNat ≤ s.cfg.msgWords := by
  have ⟨hle, _, _⟩ := h
  have hmod := s.cfg.msgWords_mod
  unfold padAmount
  omega

theorem State.padMessage_len_toNat (h : s.Inv) :
    s.padMessage.len.toNat = s.len.toNat + padAmount s.len.toNat := by
  have hle := State.paddedLength_le h
  have hmax := s.cfg.msgWords_max
  rw [State.padMessage_len, BitVec.toNat_ofNat]
  omega

theorem State.padMessage_aligned (h : s.Inv) : s.padMessage.len.toNat % 4 = 0 := by
  rw [State.padMessage_len_toNat h]
  exact add_padAmount_mod _

theorem State.padMessage_wf (h : s.msg.wf) : s.padMessage.msg.wf := Memory.wf_zeroFill h _ _

theorem State.padMessage_of_aligned (h : s.len.toNat % 4 = 0) : s.padMessage = s := by
  rw [State.padMessage, padAmount_of_aligned h, Nat.add_zero, State.setLen, BitVec.ofNat_toNat, BitVec.setWidth_eq]
  rfl

theorem State.message_padMessage (h : s.Inv) : s.padMessage.message = pad s.message := by
  have ⟨_, hwf, _⟩ := h
  have hold : (List.range s.len.toNat).map s.padMessage.readMsg = s.message :=
    List.map_congr_left fun i hi => by
      have := List.mem_range.1 hi
      rw [State.readMsg_padMessage hwf, if_neg (by omega)]
  have hzeros : ((List.range (padAmount s.len.toNat)).map (s.len.toNat + ·)).map s.padMessage.readMsg =
      List.replicate (padAmount s.len.toNat) 0#32 := by
    rw [List.map_map, List.map_eq_replicate_iff.2, List.length_range]
    intro i hi
    have := List.mem_range.1 hi
    rw [Function.comp_apply, State.readMsg_padMessage hwf, if_pos (by omega)]
  rw [State.message, State.padMessage_len_toNat h, List.range_add, List.map_append, hold, hzeros, pad,
    State.length_message]

end Message

/-- Settles O45: the padded length stays within the buffer and is aligned, so a second `PAD` finds nothing to pad. -/
theorem padCommandZeroPads : Obligations.PadCommandZeroPads := by
  refine ⟨by decide, fun s hinv => ?_⟩
  have ⟨_, hwf, _⟩ := hinv
  have hlen := State.padMessage_len_toNat hinv
  refine ⟨s.padMessage, rfl, rfl, hlen, hlen ▸ State.paddedLength_le hinv, fun i hlo hhi => ?zeroed,
    fun i hi => ?kept, State.padMessage_of_aligned,
    congrArg Host.Outcome.next (State.padMessage_of_aligned (State.padMessage_aligned hinv))⟩
  case zeroed => rw [State.readMsg_padMessage hwf, if_pos (by omega)]
  case kept => rw [State.readMsg_padMessage hwf, if_neg (by omega)]

/-! ### ENC and DEC (R163, R164) -/

/-- Settles O46: `PAD` makes the Message the padded one, and mapping its blocks is `Encrypt`. -/
theorem encEncryptsMessageInPlace : Obligations.EncEncryptsMessageInPlace := by
  refine ⟨by decide, fun s hinv => ⟨exec_enc_noKey s, fun hk => ?_⟩⟩
  have ⟨_, hwf, _⟩ := hinv
  have hpwf := State.padMessage_wf hwf
  have haligned := State.padMessage_aligned hinv
  have hlen := State.padMessage_len_toNat hinv
  refine ⟨_, exec_enc_key s hk, rfl, hlen, ?message, fun i hi => ?beyond, fun hzero => ?empty⟩
  case message =>
    exact (State.message_mapMessage hpwf haligned _).trans (congrArg _ (State.message_padMessage hinv))
  case beyond =>
    rw [State.mapMessage_len] at hi
    rw [State.readMsg_mapMessage_of_le hpwf haligned _ hi, State.readMsg_padMessage hwf, if_neg (by omega)]
  case empty =>
    rw [State.padMessage_of_aligned (by rw [hzero]; rfl), State.mapMessage_of_len_zero hzero]

/-- Settles O47: the checks in order; mapping the blocks of an aligned Message is `Decrypt`, which pads nothing. -/
theorem decDecryptsMessageInPlace : Obligations.DecDecryptsMessageInPlace := by
  refine ⟨by decide, fun s hinv => ⟨exec_dec_noKey s, exec_dec_misaligned s, fun hk hl => ?_⟩⟩
  obtain ⟨-, hwf, -⟩ := hinv
  refine ⟨_, exec_dec_key s hk hl, rfl, ?message, fun i => State.readMsg_mapMessage_of_le hwf hl _,
    fun hzero => State.mapMessage_of_len_zero hzero _⟩
  case message =>
    have haligned : s.message.length % 4 = 0 := by rwa [State.length_message]
    exact (State.message_mapMessage hwf hl _).trans (decrypt_of_aligned s.cfg s.key haligned).symm

/-! ### ENCB, DECB, ENC and DEC as micro commands (R165) -/

section MicroCommands

variable (s : State) {b : Nat}

/-- The micro commands of one block inside the buffer compose the rounds on that block. -/
theorem execAll_encb_rounds (hwf : s.msg.wf) (hin : 4 * b + 3 < s.cfg.msgWords) (hk : s.kv = 0b1111#4) :
    execAll [.kxor b 0, .xfrm b, .kxor b 1, .xfrm b, .kxor b 2, .xfrm b,
      .kxor b 3, .xfrm b, .kxor b 4, .xfrm b, .kxor b 5, .xfrm b] s = exec (.encb b) s := by
  have hstart := exec_kxor_inside s (b := b) (r := 0) (by omega) hin hk
  simp (disch := decide) only [execAll, hstart, exec_xfrm_writeBlock hwf hin, exec_kxor_writeBlock hwf hin hk,
    exec_encb_inside s hin hk, encryptBlockIsSixRounds s.cfg]

theorem execAll_decb_rounds (hwf : s.msg.wf) (hin : 4 * b + 3 < s.cfg.msgWords) (hk : s.kv = 0b1111#4) :
    execAll [.ixfrm b, .kxor b 0, .ixfrm b, .kxor b 1, .ixfrm b, .kxor b 2,
      .ixfrm b, .kxor b 3, .ixfrm b, .kxor b 4, .ixfrm b, .kxor b 5] s = exec (.decb b) s := by
  simp (disch := decide) only [execAll, exec_ixfrm_inside s hin, exec_ixfrm_writeBlock hwf hin,
    exec_kxor_writeBlock hwf hin hk, exec_decb_inside s hin hk, decryptBlock_rounds s.cfg]

/-- A command that replaces its block by `f` of it, run for the first `n` blocks in turn. -/
theorem execAll_blocks {c : Nat → Instr} {f : Block → Block}
    (hc : ∀ (m : Memory) (b : Nat), 4 * b + 3 < s.cfg.msgWords →
      exec (c b) (s.setMsg m) = .next ((s.setMsg m).writeBlock b (f ((s.setMsg m).readBlock b))))
    {n : Nat} (hn : 4 * n ≤ s.cfg.msgWords) :
    execAll ((List.range n).map c) s = .next (s.setMsg (s.msg.mapBlocks f n)) := by
  induction n with
  | zero => rfl
  | succ k ih =>
    rw [List.range_succ, List.map_append, execAll_append _ _ (ih (by omega))]
    simp only [List.map_cons, List.map_nil, execAll, hc _ k (by omega)]
    rfl

/-- `ENCB` of each block of the Message encrypts the Message. -/
theorem execAll_encb_message (hlen : s.len.toNat ≤ s.cfg.msgWords) (hk : s.kv = 0b1111#4) :
    execAll ((List.range (s.len.toNat / 4)).map Instr.encb) s = .next (s.mapMessage (encryptBlock s.cfg s.key)) :=
  execAll_blocks s (fun m _ hin => exec_encb_inside (s.setMsg m) hin hk) (by omega)

theorem execAll_decb_message (hlen : s.len.toNat ≤ s.cfg.msgWords) (hk : s.kv = 0b1111#4) :
    execAll ((List.range (s.len.toNat / 4)).map Instr.decb) s = .next (s.mapMessage (decryptBlock s.cfg s.key)) :=
  execAll_blocks s (fun m _ hin => exec_decb_inside (s.setMsg m) hin hk) (by omega)

end MicroCommands

/-- Settles O49: outside the buffer every micro command raises `E_RANGE`, which again changes nothing; inside, each does its
round's half on the one block. `ENC` is `PAD` and then, as `DEC`, one block command after the other. -/
theorem macroCommandsEqualMicroCommands : Obligations.MacroCommandsEqualMicroCommands := by
  intro s hinv hk
  have ⟨hle, hwf, _⟩ := hinv
  refine ⟨fun b => ?encb, fun b => ?decb, ?enc, fun hl => ?dec⟩
  case encb =>
    rcases Nat.lt_or_ge (4 * b + 3) s.cfg.msgWords with hin | hout
    · exact execAll_encb_rounds s hwf hin hk
    · simp only [execAll, exec_kxor_outside s (.inr hout), exec_xfrm_outside (s.raise .range) hout,
        exec_kxor_outside (s.raise .range) (.inr hout), State.raise_raise, exec_encb_outside s hout]
  case decb =>
    rcases Nat.lt_or_ge (4 * b + 3) s.cfg.msgWords with hin | hout
    · exact execAll_decb_rounds s hwf hin hk
    · simp only [execAll, exec_ixfrm_outside s hout, exec_ixfrm_outside (s.raise .range) hout,
        exec_kxor_outside (s.raise .range) (.inr hout), State.raise_raise, exec_decb_outside s hout]
  case enc =>
    have hplen := State.padMessage_len_toNat hinv
    have hblocks := execAll_encb_message s.padMessage (hplen ▸ State.paddedLength_le hinv) hk
    rw [hplen] at hblocks
    exact hblocks.trans (exec_enc_key s hk).symm
  case dec => rw [exec_dec_key s hk hl, execAll_decb_message s hle hk]

end Sys2Proof.Machine

namespace Sys2Proof.Machine

/-! ### NOP (43_system.md R180) -/

theorem exec_nop (s : State) : exec .nop s = .next s := rfl

/-- The remaining 24 bits of a command word with `op = 0x00` are must-be-zero bits (30_encoding.md R86). -/
theorem decode_error_of_op_zero {w : Word} (hop : w.toNat / 2 ^ 24 = 0) (hw : w ≠ 0#32) :
    ∃ e, decode w = .error e := by
  have hne : w.toNat ≠ 0 := fun h => hw (BitVec.toNat_inj.1 h)
  have hlow : w.toNat % 2 ^ 24 ≠ 0 := by omega
  have hmem : w.toNat / 2 ^ 24 ∈ [0x00, 0x01, 0x10, 0x11, 0x12, 0x40, 0x41, 0x42] := hop ▸ List.mem_cons_self
  exact (illegalWordsAreExactlyThose.1 w).2 (.inr (.inl ⟨hmem, hlow⟩))

/-- Settles O15: the word 0 is the row of `NOP`; any other word with `op = 0x00` has a must-be-zero bit set. -/
theorem nopChangesNothing : Obligations.NopChangesNothing :=
  ⟨exec_nop, rfl, fun _ => decode_error_of_op_zero⟩

end Sys2Proof.Machine

namespace Sys2Proof.Machine

/-! ### The error bits and the answers as a parameter (60_exceptions.md R199)

No rule reads an error bit or an earlier answer. So a run is followed once for all error bits and answers it may start
with: its final state is one state, its final error bits a function of the first ones, and so is each answer. -/

theorem State.hostRead_mapped {s : State} {a : Address} {l : Location} (h : locate s.cfg a = some l) :
    s.hostRead a = s.respond (s.readLocation l) := by
  rw [State.hostRead, h]

theorem State.hostRead_unmapped {s : State} {a : Address} (h : locate s.cfg a = none) :
    s.hostRead a = (s.raise .addr).respond 0#32 := by
  rw [State.hostRead, h]

/-- A state with other error bits and other answers given so far. -/
def State.withRecord (s : State) (e : BitVec 6) (out : List Word) : State := { s with errors := e, returned := out }

/-- From `s`, whatever its error bits and answers, `f` reaches one state and sets the same error bits; it answers
nothing. -/
def IgnoresRecord (f : State → Host.Outcome State Fault Refusal) (s : State) : Prop :=
  ∃ (t : State) (r : BitVec 6), ∀ e out, f (s.withRecord e out) = .next (t.withRecord (e ||| r) out)

/-! The forms of a meaning, by which its lemma below follows its definition. The default proofs say that a check or an
update unfolds to one that mentions neither error bits nor answers. -/

namespace IgnoresRecord

variable {s : State}

theorem congr {f f' : State → Host.Outcome State Fault Refusal} (hf : IgnoresRecord f s)
    (h : ∀ e out, f' (s.withRecord e out) = f (s.withRecord e out)) : IgnoresRecord f' s := by
  obtain ⟨t, r, ht⟩ := hf
  exact ⟨t, r, fun e out => (h e out).trans (ht e out)⟩

theorem raise (k : ErrorKind) : IgnoresRecord (fun u => .next (u.raise k)) s :=
  ⟨s, k.mask, fun _ _ => rfl⟩

theorem update {g : State → State}
    (hg : ∀ e out, g (s.withRecord e out) = (g s).withRecord e out := by exact fun _ _ => rfl) :
    IgnoresRecord (fun u => .next (g u)) s :=
  ⟨g s, 0#6, fun e out => by simp only [hg, BitVec.or_zero]⟩

theorem ite {c : State → Prop} [DecidablePred c] {g g' : State → State}
    (hg : IgnoresRecord (fun u => .next (g u)) s) (hg' : IgnoresRecord (fun u => .next (g' u)) s)
    (hc : ∀ e out, c (s.withRecord e out) ↔ c s := by exact fun _ _ => Iff.rfl) :
    IgnoresRecord (fun u => .next (if c u then g u else g' u)) s := by
  by_cases hs : c s
  · exact hg.congr fun e out => by rw [if_pos ((hc e out).2 hs)]
  · exact hg'.congr fun e out => by rw [if_neg (mt (hc e out).1 hs)]

/-- A check of a command: it raises an error, or the command goes on. -/
theorem check {c : State → Prop} [DecidablePred c] {k : ErrorKind} {g : State → State}
    (hg : IgnoresRecord (fun u => .next (g u)) s)
    (hc : ∀ e out, c (s.withRecord e out) ↔ c s := by exact fun _ _ => Iff.rfl) :
    IgnoresRecord (fun u => .next (if c u then u.raise k else g u)) s :=
  ite (raise k) hg hc

end IgnoresRecord

theorem exec_minv_ofNat {s : State} {n : Nat} (h : modInverse s.gamma.toNat s.opx.toNat = some n) :
    exec .minv s = .next (s.setRes (BitVec.ofNat 32 n)) := by
  rw [exec, execMinv, h]

/-- Every command but `SRST`: its checks and its effect read neither error bits nor answers. -/
theorem exec_ignoresRecord {i : Instr} (hi : i ≠ .srst) (s : State) : IgnoresRecord (exec i) s := by
  cases i with
  | srst => exact absurd rfl hi
  | nop => exact .update
  | gmul => exact .update
  | ginv =>
    cases h : inverseGammaMul s.gamma s.opx with
    | some v =>
      exact (IgnoresRecord.update (g := (·.setRes v))).congr fun e out => exec_ginv_some (s := s.withRecord e out) h
    | none => exact (IgnoresRecord.raise .noinv).congr fun e out => exec_ginv_none (s := s.withRecord e out) h
  | minv =>
    cases h : modInverse s.gamma.toNat s.opx.toNat with
    | some n =>
      exact (IgnoresRecord.update (g := (·.setRes _))).congr fun e out => exec_minv_ofNat (s := s.withRecord e out) h
    | none => exact (IgnoresRecord.raise .noinv).congr fun e out => exec_minv_none (s := s.withRecord e out) h
  | xfrm b => exact .check .update
  | ixfrm b => exact .check .update
  | kxor b r => exact .check (.check (.check .update))
  | encb b => exact .check (.check .update)
  | decb b => exact .check (.check .update)
  | pad => exact .update
  | enc => exact .check .update
  | dec => exact .check (.check .update)

/-- No other Word means `SRST`. -/
theorem eq_srst_word {w : Word} (h : decode w = .ok .srst) : w = 0x01000000#32 := by
  have hcases := decode_ok_cases h
  simp only [reduceCtorEq, false_and, true_and, false_or, or_false] at hcases
  exact BitVec.toNat_inj.1 hcases

theorem execWord_ignoresRecord {w : Word} (hw : w ≠ 0x01000000#32) (s : State) : IgnoresRecord (execWord w) s := by
  cases h : decode w with
  | ok i =>
    have hi : i ≠ .srst := fun hi => hw (eq_srst_word (hi ▸ h))
    exact (exec_ignoresRecord hi s).congr fun _ _ => execWord_of_ok h
  | error e => exact (IgnoresRecord.raise .illegal).congr fun _ _ => execWord_of_error h

theorem eq_commandAddress {cfg : Config} {a : Address} (h : locate cfg a = some .cmd) : a = 0x00000#19 :=
  BitVec.toNat_inj.1 (locate_eq_some_iff.1 h).1

/-- Every host write but that of the command word of `SRST`. -/
theorem hostWrite_ignoresRecord {a : Address} {v : Word} (h : ¬ (a = 0x00000#19 ∧ v = 0x01000000#32)) (s : State) :
    IgnoresRecord (hostWrite a v) s := by
  have unwritable (hro : ∀ l, locate s.cfg a = some l → l.readOnly) : IgnoresRecord (hostWrite a v) s :=
    (IgnoresRecord.raise .addr).congr fun e out => hostWrite_unwritable (s := s.withRecord e out) hro
  cases hl : locate s.cfg a with
  | none => exact unwritable (by simp [hl])
  | some l =>
    cases l with
    | cmd =>
      have hv : v ≠ 0x01000000#32 := fun hv => h ⟨eq_commandAddress hl, hv⟩
      exact (execWord_ignoresRecord hv s).congr fun e out => hostWrite_cmd (s := s.withRecord e out) hl
    | len =>
      have hlen : IgnoresRecord (fun u => .next (u.writeLen v)) s :=
        .ite .update (.raise .range)
      exact hlen.congr fun e out => hostWrite_len (s := s.withRecord e out) hl
    | gamma =>
      exact (IgnoresRecord.update (g := (·.setGamma v))).congr fun e out =>
        hostWrite_gamma (s := s.withRecord e out) hl
    | opx =>
      exact (IgnoresRecord.update (g := (·.setOpx v))).congr fun e out =>
        hostWrite_opx (s := s.withRecord e out) hl
    | key i =>
      exact (IgnoresRecord.update (g := (·.writeKey i v))).congr fun e out =>
        hostWrite_key (s := s.withRecord e out) hl
    | msg i =>
      exact (IgnoresRecord.update (g := (·.writeMsg i v))).congr fun e out =>
        hostWrite_msg (s := s.withRecord e out) hl
    | status | res | cap | c | ci | kc => exact unwritable (by simp [hl, Location.readOnly])

/-- No command touches the list of transactions. -/
theorem exec_pending {i : Instr} {s t : State} (h : exec i s = .next t) : t.pending = s.pending := by
  obtain rfl | ⟨-, rfl⟩ | ⟨_, rfl⟩ | ⟨_, rfl⟩ | ⟨_, _, -, rfl⟩ | rfl | ⟨_, rfl⟩ | ⟨_, rfl⟩ := exec_cases s h <;> rfl

theorem execWord_pending {w : Word} {s t : State} (h : execWord w s = .next t) : t.pending = s.pending := by
  cases hw : decode w with
  | ok i => exact exec_pending (execWord_of_ok hw ▸ h)
  | error e =>
    rw [execWord_of_error hw] at h
    cases h
    rfl

theorem transact_pending {x : Transaction} {s t : State} (h : transact x s = .next t) : t.pending = s.pending := by
  cases x with
  | reset => cases h; rfl
  | read a =>
    cases h
    obtain ⟨_, -, h⟩ | ⟨-, h⟩ := hostRead_cases s a <;> rw [h] <;> rfl
  | write a v =>
    obtain ⟨-, h⟩ | ⟨-, -, rfl⟩ | ⟨-, rfl⟩ | ⟨-, rfl⟩ | ⟨_, -, rfl⟩ | ⟨_, -, rfl⟩ | ⟨-, -, rfl⟩ | ⟨-, rfl⟩ :=
      hostWrite_cases s h
    · exact execWord_pending h
    all_goals rfl

/-! ### One transaction, one step, a run -/

/-- `RESET` and the write of the command word of `SRST` to `CMD` (60_exceptions.md R201). -/
def Transaction.ClearsErrors (x : Transaction) : Prop := x = .reset ∨ x = .write 0x00000#19 0x01000000#32

theorem exists_clearsErrors_iff {xs : List Transaction} :
    (∃ x ∈ xs, x.ClearsErrors) ↔ .reset ∈ xs ∨ .write 0x00000#19 0x01000000#32 ∈ xs := by
  simp only [Transaction.ClearsErrors, and_or_left, exists_or, exists_eq_right]

/-- The error bits after the transactions `xs`, as a function of those before: fixed where one of `xs` clears them, the
same bits set otherwise. -/
def ErrorsAfter (xs : List Transaction) (g : BitVec 6 → BitVec 6) : Prop :=
  ((∃ x ∈ xs, x.ClearsErrors) → ∃ c, ∀ e, g e = c) ∧ ((¬ ∃ x ∈ xs, x.ClearsErrors) → ∃ r, ∀ e, g e = e ||| r)

/-- The answer of a read of `a`, as a function of the error bits a run starts with: it depends on them at `STATUS` only,
where they are set in it. -/
def AnswerOf (a : Address) (v : BitVec 6 → Word) : Prop :=
  (∃ w, ∀ e, v e = w) ∨ (a = 0x00001#19 ∧ ∃ w : Word, ∀ e : BitVec 6, v e = w ||| e.setWidth 32)

/-- The answers of a run that starts with the error bits `e`. -/
def answersAt (vs : List (BitVec 6 → Word)) (e : BitVec 6) : List Word := vs.map fun v => v e

theorem answersAt_append_comp (vs ws : List (BitVec 6 → Word)) (g : BitVec 6 → BitVec 6) (e : BitVec 6) :
    answersAt (vs ++ ws.map (· ∘ g)) e = answersAt vs e ++ answersAt ws (g e) := by
  simp [answersAt]

/-- `f` executes the transactions `xs` from `s` to `t`, for all error bits `e` and all answers given before: it ends
with the error bits `g e` and adds the answers `vs`, each taken at `e`. -/
structure UniformRun (f : State → Host.Outcome State Fault Refusal) (s t : State) (xs : List Transaction)
    (g : BitVec 6 → BitVec 6) (vs : List (BitVec 6 → Word)) : Prop where
  run : ∀ e out, f (s.withRecord e out) = .next (t.withRecord (g e) (out ++ answersAt vs e))
  errors : ErrorsAfter xs g
  answers : List.Forall₂ AnswerOf (readAddresses xs) vs

/-- A run without reads. -/
theorem UniformRun.of_no_reads {f : State → Host.Outcome State Fault Refusal} {s t : State} {xs : List Transaction}
    {g : BitVec 6 → BitVec 6} (hrun : ∀ e out, f (s.withRecord e out) = .next (t.withRecord (g e) out))
    (herrors : ErrorsAfter xs g) (hreads : readAddresses xs = []) : UniformRun f s t xs g [] :=
  ⟨fun e out => (hrun e out).trans (by rw [answersAt, List.map_nil, List.append_nil]), herrors, hreads ▸ .nil⟩

theorem ErrorsAfter.nil : ErrorsAfter [] id :=
  ⟨by simp, fun _ => ⟨0#6, fun _ => BitVec.or_zero.symm⟩⟩

theorem ErrorsAfter.of_constant {xs : List Transaction} {g : BitVec 6 → BitVec 6} {c : BitVec 6}
    (hxs : ∃ x ∈ xs, x.ClearsErrors) (hg : ∀ e, g e = c) : ErrorsAfter xs g :=
  ⟨fun _ => ⟨c, hg⟩, fun h => absurd hxs h⟩

theorem ErrorsAfter.of_or {xs : List Transaction} {g : BitVec 6 → BitVec 6} {r : BitVec 6}
    (hxs : ¬ ∃ x ∈ xs, x.ClearsErrors) (hg : ∀ e, g e = e ||| r) : ErrorsAfter xs g :=
  ⟨fun h => absurd h hxs, fun _ => ⟨r, hg⟩⟩

/-- A clearing transaction in either list fixes the error bits; without one, the bits set add up. -/
theorem ErrorsAfter.append {xs ys : List Transaction} {g h : BitVec 6 → BitVec 6} (hg : ErrorsAfter xs g)
    (hh : ErrorsAfter ys h) : ErrorsAfter (xs ++ ys) (h ∘ g) := by
  have hmem : (∃ x ∈ xs ++ ys, x.ClearsErrors) ↔ (∃ x ∈ xs, x.ClearsErrors) ∨ ∃ x ∈ ys, x.ClearsErrors := by
    simp only [List.mem_append, or_and_right, exists_or]
  by_cases hys : ∃ x ∈ ys, x.ClearsErrors
  · obtain ⟨c, hc⟩ := hh.1 hys
    exact .of_constant (hmem.2 (.inr hys)) fun e => hc (g e)
  obtain ⟨r, hr⟩ := hh.2 hys
  by_cases hxs : ∃ x ∈ xs, x.ClearsErrors
  · obtain ⟨c, hc⟩ := hg.1 hxs
    exact .of_constant (c := c ||| r) (hmem.2 (.inl hxs)) fun e => by rw [Function.comp, hr, hc]
  · obtain ⟨q, hq⟩ := hg.2 hxs
    exact .of_or (r := q ||| r) (mt hmem.1 (not_or.2 ⟨hxs, hys⟩)) fun e => by
      rw [Function.comp, hr, hq, BitVec.or_assoc]

/-- An answer of a later run, as a function of the error bits before the earlier transactions `xs`. -/
theorem AnswerOf.comp {a : Address} {v : BitVec 6 → Word} {xs : List Transaction} {g : BitVec 6 → BitVec 6}
    (hv : AnswerOf a v) (hg : ErrorsAfter xs g) : AnswerOf a (v ∘ g) := by
  obtain ⟨w, hw⟩ | ⟨ha, w, hw⟩ := hv
  · exact .inl ⟨w, fun e => hw (g e)⟩
  by_cases hxs : ∃ x ∈ xs, x.ClearsErrors
  · obtain ⟨c, hc⟩ := hg.1 hxs
    exact .inl ⟨w ||| c.setWidth 32, fun e => by rw [Function.comp, hw, hc]⟩
  · obtain ⟨r, hr⟩ := hg.2 hxs
    refine .inr ⟨ha, w ||| r.setWidth 32, fun e => ?_⟩
    rw [Function.comp, hw, hr, BitVec.setWidth_or, BitVec.or_assoc, BitVec.or_comm (e.setWidth 32)]

theorem State.status_withRecord (s : State) (e : BitVec 6) (out : List Word) :
    (s.withRecord e out).status = (s.withRecord 0#6 out).status ||| e.setWidth 32 := by
  rw [State.status, BitVec.append_def, BitVec.setWidth'_eq]
  have hzero : (s.withRecord 0#6 out).status = (0#20 ++ s.kv ++ 0#2).shiftLeftZeroExtend 6 := by
    rw [State.status, BitVec.append_def]
    exact BitVec.or_zero
  rw [hzero]
  rfl

theorem readAddresses_append (xs ys : List Transaction) :
    readAddresses (xs ++ ys) = readAddresses xs ++ readAddresses ys := by
  induction xs with
  | nil => rfl
  | cons x xs ih => cases x <;> simp [ih]

theorem State.readLocation_withRecord {s : State} {l : Location} (hl : l ≠ .status) (e : BitVec 6) (out : List Word) :
    (s.withRecord e out).readLocation l = s.readLocation l := by
  cases l with
  | status => exact absurd rfl hl
  | cmd | len | gamma | opx | res | cap | key | c | ci | kc | msg => rfl

theorem State.readLocation_withRecord_nil (s : State) (l : Location) (e : BitVec 6) (out : List Word) :
    (s.withRecord e out).readLocation l = (s.withRecord e []).readLocation l := by
  cases l <;> rfl

theorem answerOf_readLocation {s : State} {a : Address} {l : Location} (hl : locate s.cfg a = some l) :
    AnswerOf a fun e => (s.withRecord e []).readLocation l := by
  by_cases hstatus : l = .status
  · subst hstatus
    exact .inr ⟨BitVec.toNat_inj.1 (locate_eq_some_iff.1 hl).1, _, fun e => s.status_withRecord e []⟩
  · exact .inl ⟨s.readLocation l, fun e => State.readLocation_withRecord hstatus e []⟩

/-- A host read changes error bits and answers only: `E_ADDR` at an unmapped address. -/
theorem read_uniformRun (a : Address) (s : State) : ∃ g vs, UniformRun (transact (.read a)) s s [.read a] g vs := by
  have hclear : ¬ ∃ x ∈ [Transaction.read a], x.ClearsErrors := by simp [Transaction.ClearsErrors]
  cases hl : locate s.cfg a with
  | none =>
    refine ⟨(· ||| ErrorKind.addr.mask), [fun _ => 0#32], fun e out => ?_, .of_or hclear fun _ => rfl,
      .cons (.inl ⟨0#32, fun _ => rfl⟩) .nil⟩
    have hread := State.hostRead_unmapped (s := s.withRecord e out) hl
    exact congrArg Host.Outcome.next hread
  | some l =>
    refine ⟨id, [fun e => (s.withRecord e []).readLocation l], fun e out => ?_,
      .of_or hclear fun _ => BitVec.or_zero.symm, .cons (answerOf_readLocation hl) .nil⟩
    have hread := State.hostRead_mapped (s := s.withRecord e out) hl
    rw [State.readLocation_withRecord_nil] at hread
    exact congrArg Host.Outcome.next hread

theorem transact_of_clearsErrors {x : Transaction} (hx : x.ClearsErrors) (s : State) :
    transact x s = .next s.resetCore := by
  obtain rfl | rfl := hx
  · rfl
  · have hdecode : decode 0x01000000#32 = .ok .srst := rfl
    have hcmd : locate s.cfg 0x00000#19 = some .cmd := rfl
    exact (hostWrite_cmd hcmd).trans (execWord_of_ok hdecode)

theorem transact_uniformRun (x : Transaction) (s : State) : ∃ t g vs, UniformRun (transact x) s t [x] g vs := by
  by_cases hx : x.ClearsErrors
  · have hmem : ∃ y ∈ [x], y.ClearsErrors := ⟨x, List.mem_singleton_self x, hx⟩
    have hread : readAddresses [x] = [] := by obtain rfl | rfl := hx <;> rfl
    exact ⟨s.resetCore, fun _ => 0#6, [],
      .of_no_reads (fun _ _ => transact_of_clearsErrors hx _) (.of_constant hmem fun _ => rfl) hread⟩
  cases x with
  | reset => exact absurd (.inl rfl) hx
  | read a => exact ⟨s, read_uniformRun a s⟩
  | write a v =>
    have hsrst : ¬ (a = 0x00000#19 ∧ v = 0x01000000#32) := by
      rintro ⟨rfl, rfl⟩
      exact hx (.inr rfl)
    obtain ⟨t, r, ht⟩ := hostWrite_ignoresRecord hsrst s
    have hclear : ¬ ∃ y ∈ [Transaction.write a v], y.ClearsErrors := by simpa using hx
    exact ⟨t, (· ||| r), [], .of_no_reads ht (.of_or hclear fun _ => rfl) rfl⟩

theorem step_uniformRun (s : State) :
    ∃ t g vs, t.pending = s.pending.drop 1 ∧ UniformRun step s t (s.pending.take 1) g vs := by
  cases hp : s.pending with
  | nil => exact ⟨s, id, [], hp, .of_no_reads (fun e out => step_idle (s := s.withRecord e out) hp) .nil rfl⟩
  | cons x rest =>
    obtain ⟨t, g, vs, hx⟩ := transact_uniformRun x { s with pending := rest }
    refine ⟨t, g, vs, transact_pending (hx.run 0#6 []), fun e out => ?_, hx.errors, hx.answers⟩
    exact (step_cons (s := s.withRecord e out) hp).trans (hx.run e out)

/-- R199 as one statement about a run, for all error bits and answers it may start with. -/
theorem runSteps_uniformRun (n : Nat) (s : State) :
    ∃ t g vs, UniformRun (runSteps n) s t (s.pending.take n) g vs := by
  induction n generalizing s with
  | zero =>
    rw [List.take_zero]
    exact ⟨s, id, [], .of_no_reads (fun _ _ => runSteps_zero _) .nil rfl⟩
  | succ n ih =>
    obtain ⟨u, g, vs, hpending, hstep⟩ := step_uniformRun s
    obtain ⟨t, h, ws, hrun⟩ := ih u
    have hsplit : s.pending.take (n + 1) = s.pending.take 1 ++ u.pending.take n := by
      rw [hpending, Nat.add_comm, List.take_add]
    refine ⟨t, h ∘ g, vs ++ ws.map (· ∘ g), fun e out => ?_, hsplit ▸ hstep.errors.append hrun.errors, ?_⟩
    · rw [runSteps_succ _ (hstep.run e out), hrun.run, answersAt_append_comp, List.append_assoc]
      rfl
    · rw [hsplit, readAddresses_append]
      refine List.rel_append hstep.answers (List.forall₂_map_right_iff.2 ?_)
      exact hrun.answers.imp fun _ _ hv => hv.comp hstep.errors

/-- What O58 says of one answer, `v` from the error bits `e` and `v'` from `e'`. -/
theorem AnswerOf.agree {a : Address} {v : BitVec 6 → Word} (h : AnswerOf a v) (e e' : BitVec 6) :
    (a = 0x00001#19 → v e' = v e ∨ ∃ r : Word, v e = r ||| e.setWidth 32 ∧ v e' = r ||| e'.setWidth 32) ∧
    (a ≠ 0x00001#19 → v e' = v e) := by
  obtain ⟨w, hw⟩ | ⟨ha, w, hw⟩ := h
  · have heq : v e' = v e := (hw e').trans (hw e).symm
    exact ⟨fun _ => .inl heq, fun _ => heq⟩
  · exact ⟨fun _ => .inr ⟨w, hw e, hw e'⟩, fun hne => absurd ha hne⟩

/-- Settles O58: the run from `s` is followed for all error bits at once and read off at those of `s` and at `e`. -/
theorem errorBitsNeverInfluenceExecution : Obligations.ErrorBitsNeverInfluenceExecution := by
  intro n s e
  obtain ⟨t, g, vs, hrun, herrors, hanswers⟩ := runSteps_uniformRun n s
  have hlen : vs.length = (readAddresses (s.pending.take n)).length := hanswers.length_eq.symm
  refine ⟨t.withRecord (g s.errors) (s.returned ++ answersAt vs s.errors), g e, answersAt vs s.errors,
    answersAt vs e, hrun s.errors s.returned, rfl, hrun e s.returned, (List.length_map _).trans hlen,
    (List.length_map _).trans hlen, ?_, ?_⟩
  · split
    case isTrue hclear =>
      obtain ⟨c, hc⟩ := herrors.1 (exists_clearsErrors_iff.2 hclear)
      exact (hc e).trans (hc s.errors).symm
    case isFalse hclear =>
      obtain ⟨r, hr⟩ := herrors.2 (mt exists_clearsErrors_iff.1 hclear)
      exact ⟨r, hr s.errors, hr e⟩
  · intro k a v v' ha hv hv'
    rw [answersAt, List.getElem?_map, Option.map_eq_some_iff] at hv hv'
    obtain ⟨f, hf, rfl⟩ := hv
    obtain ⟨f', hf', rfl⟩ := hv'
    obtain rfl : f = f' := Option.some.inj (hf.symm.trans hf')
    obtain ⟨hk, rfl⟩ := List.getElem?_eq_some_iff.1 ha
    obtain ⟨hk', rfl⟩ := List.getElem?_eq_some_iff.1 hf
    exact (hanswers.get hk hk').agree s.errors e

theorem transact_errors_of_not_clearsErrors {x : Transaction} (hx : ¬ x.ClearsErrors) {s t : State}
    (h : transact x s = .next t) : ∃ r, t.errors = s.errors ||| r := by
  obtain ⟨u, g, vs, hrun, herrors, -⟩ := transact_uniformRun x s
  obtain ⟨r, hr⟩ := herrors.2 (by simpa using hx)
  obtain rfl := Host.Outcome.next.inj (h.symm.trans (hrun s.errors s.returned))
  exact ⟨r, hr s.errors⟩

/-- Settles O57: a transaction that clears no error bit only adds to them; the other two reset the core. -/
theorem errorBitsClearedOnlyByReset : Obligations.ErrorBitsClearedOnlyByReset := by
  intro s t e hstep hset hclear
  cases hp : s.pending with
  | nil =>
    rw [step_idle hp] at hstep
    cases hstep
    exact absurd (hset.symm.trans hclear) (by decide)
  | cons x rest =>
    rw [step_cons hp] at hstep
    by_cases hx : x.ClearsErrors
    · rw [transact_of_clearsErrors hx] at hstep
      cases hstep
      refine ⟨⟨rest, ?_⟩, rfl, rfl, rfl, fun _ => rfl⟩
      obtain rfl | rfl := hx
      · exact .inl rfl
      · exact .inr rfl
    · obtain ⟨r, hr⟩ := transact_errors_of_not_clearsErrors hx hstep
      rw [hr, BitVec.getLsbD_or, hset, Bool.true_or] at hclear
      cases hclear

end Sys2Proof.Machine

namespace Sys2Proof.Machine

/-! ### Reset (70_reset_and_hazards.md R220) -/

/-- Settles O14: `RESET` and `SRST` both give `resetCore`, whose fields are those of the state the model starts in. -/
theorem resetGivesSpecifiedValues : Obligations.ResetGivesSpecifiedValues := by
  refine ⟨fun s rest hp => ?reset, fun s => ?srst, ?initial⟩
  case reset => exact (step_cons hp).trans (transact_of_clearsErrors (.inl rfl) { s with pending := rest })
  case srst => rfl
  case initial => exact ⟨rfl, rfl, Memory.read_nil, rfl, rfl, rfl, rfl, rfl⟩

/-! ### The configuration (R221) -/

/-- No command changes the configuration. -/
theorem exec_cfg {i : Instr} {s t : State} (h : exec i s = .next t) : t.cfg = s.cfg := by
  obtain rfl | ⟨-, rfl⟩ | ⟨_, rfl⟩ | ⟨_, rfl⟩ | ⟨_, _, -, rfl⟩ | rfl | ⟨_, rfl⟩ | ⟨_, rfl⟩ := exec_cases s h <;> rfl

theorem execWord_cfg {w : Word} {s t : State} (h : execWord w s = .next t) : t.cfg = s.cfg := by
  cases hw : decode w with
  | ok i => exact exec_cfg (execWord_of_ok hw ▸ h)
  | error e =>
    rw [execWord_of_error hw] at h
    cases h
    exact State.raise_cfg s .illegal

theorem hostWrite_cfg {a : Address} {v : Word} {s t : State} (h : hostWrite a v s = .next t) : t.cfg = s.cfg := by
  obtain ⟨-, h⟩ | ⟨-, -, rfl⟩ | ⟨-, rfl⟩ | ⟨-, rfl⟩ | ⟨_, -, rfl⟩ | ⟨_, -, rfl⟩ | ⟨-, -, rfl⟩ | ⟨-, rfl⟩ :=
    hostWrite_cases s h
  · exact execWord_cfg h
  all_goals rfl

@[simp] theorem State.hostRead_cfg (s : State) (a : Address) : (s.hostRead a).cfg = s.cfg := by
  obtain ⟨_, -, h⟩ | ⟨-, h⟩ := hostRead_cases s a <;> rw [h] <;> rfl

theorem transact_cfg {x : Transaction} {s t : State} (h : transact x s = .next t) : t.cfg = s.cfg := by
  cases x with
  | reset => cases h; exact State.resetCore_cfg s
  | read a => cases h; exact State.hostRead_cfg s a
  | write a v => exact hostWrite_cfg h

theorem step_cfg {s t : State} (h : step s = .next t) : t.cfg = s.cfg := by
  cases hp : s.pending with
  | nil =>
    rw [step_idle hp] at h
    cases h
    rfl
  | cons x rest =>
    rw [step_cons hp] at h
    rw [transact_cfg h]

/-- What every step keeps holds of every state a run reaches. -/
theorem reaches.preserves {P : State → Prop} (hstep : ∀ u v, step u = .next v → P u → P v) {s t : State}
    (h : reaches s t) (hs : P s) : P t := by
  obtain ⟨n, hn⟩ := h
  induction n generalizing s with
  | zero =>
    cases hn
    exact hs
  | succ n ih =>
    obtain ⟨u, hu⟩ := step_next s
    rw [runSteps_succ n hu] at hn
    exact ih (hstep s u hu hs) hn

/-- Settles O27: no step changes the configuration, and the round constants and their inverses are computed from it. -/
theorem constantsNeverChange : Obligations.ConstantsNeverChange := by
  refine ⟨rfl, fun s t h => ?_⟩
  have hcfg : t.cfg = s.cfg := h.preserves (P := (·.cfg = s.cfg)) (fun _ _ huv hu => (step_cfg huv).trans hu) rfl
  exact ⟨hcfg, fun i => congrArg (roundConstant · i) hcfg, fun i => congrArg (inverseConstant · i) hcfg⟩

end Sys2Proof.Machine

namespace Sys2Proof

/-! ### Encoding and decoding (30_encoding.md R80 to R90) -/

theorem blockFits_iff {blk : Nat} : blockFits blk = true ↔ blk < 65536 := decide_eq_true_iff

theorem roundFits_iff {r : Nat} : roundFits r = true ↔ r < 8 := decide_eq_true_iff

theorem wellFormed_kxor_iff {blk r : Nat} : (Instr.kxor blk r).WellFormed ↔ blk < 65536 ∧ r < 8 := by
  rw [Instr.WellFormed, Instr.wellFormed, Bool.and_eq_true, blockFits_iff, roundFits_iff]

/-- Settles O2: in format N the word is the row's pattern itself, in formats B and R the fields stand below the bits the
row compares. -/
theorem decodeOfEncodeIsIdentity : Obligations.DecodeOfEncodeIsIdentity := by
  intro i hi
  cases i with
  | nop | srst | gmul | ginv | minv | pad | enc | dec => rfl
  | xfrm blk => exact decode_xfrm_word blk (blockFits_iff.1 hi)
  | ixfrm blk => exact decode_ixfrm_word blk (blockFits_iff.1 hi)
  | encb blk => exact decode_encb_word blk (blockFits_iff.1 hi)
  | decb blk => exact decode_decb_word blk (blockFits_iff.1 hi)
  | kxor blk r =>
    obtain ⟨hblk, hr⟩ := wellFormed_kxor_iff.1 hi
    exact decode_kxor_word blk r hblk hr

/-- A Word with the upper half of `p` is `p` plus its own lower half. -/
theorem add_blk_eq_of_upper {p w : Word} (hp : p.toNat % 65536 = 0) (h : w.toNat / 65536 = p.toNat / 65536) :
    p + BitVec.ofNat 32 (w.toNat % 65536) = w := by
  apply BitVec.eq_of_toNat_eq
  rw [BitVec.toNat_add, BitVec.toNat_ofNat]
  omega

/-- The word of `KXOR`, rebuilt from its two fields. -/
theorem encode_kxor_fields {w : Word} (h : w.toNat / 524288 = 0x600) :
    encode (.kxor (w.toNat % 65536) (w.toNat / 65536 % 8)) = w := by
  have hp : (0x30000000#32 + BitVec.ofNat 32 (w.toNat / 65536 % 8 * 65536)).toNat =
      0x30000000 + w.toNat / 65536 % 8 * 65536 := by
    rw [BitVec.toNat_add, BitVec.toNat_ofNat, BitVec.toNat_ofNat]
    omega
  exact add_blk_eq_of_upper (by omega) (by omega)

/-- Settles O3: the matching row fixes the bits it compares, and the fields are the other bits. -/
theorem encodeOfDecodeIsIdentity : Obligations.EncodeOfDecodeIsIdentity := by
  intro w i h
  have hblk : w.toNat % 65536 < 65536 := Nat.mod_lt _ (by decide)
  have hr : w.toNat / 65536 % 8 < 8 := Nat.mod_lt _ (by decide)
  have hcases := decode_ok_cases h
  cases i with
  | nop | srst | gmul | ginv | minv | pad | enc | dec =>
    simp only [reduceCtorEq, false_and, true_and, false_or, or_false] at hcases
    exact ⟨rfl, BitVec.toNat_inj.1 hcases.symm⟩
  | xfrm blk | ixfrm blk | encb blk | decb blk =>
    simp only [reduceCtorEq, false_and, false_or, or_false, Instr.xfrm.injEq, Instr.ixfrm.injEq, Instr.encb.injEq,
      Instr.decb.injEq] at hcases
    obtain ⟨rfl, hw⟩ := hcases
    exact ⟨blockFits_iff.2 hblk, add_blk_eq_of_upper (by decide) hw⟩
  | kxor blk r =>
    simp only [reduceCtorEq, false_and, false_or, or_false, Instr.kxor.injEq] at hcases
    obtain ⟨⟨rfl, rfl⟩, hw⟩ := hcases
    exact ⟨wellFormed_kxor_iff.2 ⟨hblk, hr⟩, encode_kxor_fields hw⟩

/-- Two different rows disagree on a bit that both compare. -/
theorem opcodeRows_disjoint : ∀ j k : Fin opcodeRows.length,
    opcodeRows[j].pattern &&& opcodeRows[k].mask = opcodeRows[k].pattern &&& opcodeRows[j].mask → j = k := by decide

/-- Settles O4: two rows that one Word matches agree on every bit that both compare. -/
theorem opcodeRowsMutuallyExclusive : Obligations.OpcodeRowsMutuallyExclusive := by
  refine ⟨rfl, fun w j k hj hk hwj hwk => ?_⟩
  have hagree : opcodeRows[j].pattern &&& opcodeRows[k].mask = opcodeRows[k].pattern &&& opcodeRows[j].mask := by
    rw [← hwj, ← hwk, BitVec.and_assoc, BitVec.and_assoc, BitVec.and_comm opcodeRows[j].mask]
  exact congrArg Fin.val (opcodeRows_disjoint ⟨j, hj⟩ ⟨k, hk⟩ hagree)

/-- Settles O1: each of the words is that of its command. -/
theorem specCommandWordsDecode : Obligations.SpecCommandWordsDecode :=
  ⟨rfl, rfl, rfl, rfl, rfl, rfl, rfl, rfl, rfl, rfl, rfl, rfl, rfl, rfl⟩

end Sys2Proof

namespace Sys2Proof.Machine

/-! ### A command word written to `CMD` (10_state.md R33, 30_encoding.md R85) -/

theorem locate_commandAddress (cfg : Config) : locate cfg 0x00000#19 = some .cmd := rfl

theorem step_write_ok {s : State} {w : Word} {i : Instr} {rest : List Transaction} (hw : decode w = .ok i)
    (hp : s.pending = .write 0x00000#19 w :: rest) : step s = exec i { s with pending := rest } := by
  rw [step_write hp, hostWrite_cmd (locate_commandAddress _), execWord_of_ok hw]

/-- Settles O6: address 0 is `CMD`, whose write executes the decoded command. -/
theorem stepRunsDecodedCommand : Obligations.StepRunsDecodedCommand := fun _ _ _ _ => step_write_ok

theorem tableWord_toNat (w : Word) : tableWord 32 w.toNat = w := by
  rw [tableWord, Nat.mod_eq_of_lt w.isLt, BitVec.ofNat_toNat, BitVec.setWidth_eq]

/-- Settles O7: the word placed is the command's own, which decodes to it. -/
theorem fetchWordStepRunsCommand : Obligations.FetchWordStepRunsCommand := by
  intro s i hi
  have hw : decode (tableWord 32 (encode i).toNat) = .ok i :=
    (congrArg decode (tableWord_toNat (encode i))).trans (decodeOfEncodeIsIdentity i hi)
  exact step_write_ok hw (State.withFetchWord_pending s 32 (encode i).toNat)

end Sys2Proof.Machine

namespace Sys2Proof.Machine

/-! ### The state invariant (10_state.md R38) -/

theorem Memory.below_nil (n : Nat) : Memory.below [] n := fun _ h => absurd h List.not_mem_nil

theorem State.inv_resetCore (s : State) : s.resetCore.Inv := ⟨Nat.zero_le _, Memory.wf_nil, Memory.below_nil _⟩

/-- Settles O53: the reset state is what resetting the core leaves, with length 0 and no Word listed. -/
theorem resetSatisfiesStateInvariant : Obligations.ResetSatisfiesStateInvariant := State.inv_resetCore .reset

section Invariant

variable {s t : State}

theorem State.inv_setLen (h : s.Inv) {n : Nat} (hn : n ≤ s.cfg.msgWords) : (s.setLen n).Inv := by
  obtain ⟨-, hwf, hbelow⟩ := h
  refine ⟨?_, hwf, hbelow⟩
  rw [State.setLen_len, BitVec.toNat_ofNat]
  exact (Nat.mod_le _ _).trans hn

theorem State.inv_writeMsg (h : s.Inv) {i : Nat} (hi : i < s.cfg.msgWords) (v : Word) : (s.writeMsg i v).Inv := by
  obtain ⟨hle, hwf, hbelow⟩ := h
  exact ⟨hle, Memory.wf_write hwf i v, Memory.below_write hbelow hi v⟩

theorem State.inv_writeBlock (h : s.Inv) {b : Nat} (hb : 4 * b + 3 < s.cfg.msgWords) (y : Block) :
    (s.writeBlock b y).Inv := by
  obtain ⟨hle, hwf, hbelow⟩ := h
  exact ⟨hle, Memory.wf_writeBlock hwf b y, Memory.below_writeBlock hbelow hb y⟩

theorem State.inv_padMessage (h : s.Inv) : s.padMessage.Inv := by
  have hpadded := State.paddedLength_le h
  have ⟨_, hwf, hbelow⟩ := h
  exact ⟨State.padMessage_len_toNat h ▸ hpadded, State.padMessage_wf hwf, Memory.below_zeroFill hbelow hpadded⟩

theorem State.inv_mapMessage (h : s.Inv) (f : Block → Block) : (s.mapMessage f).Inv := by
  obtain ⟨hle, hwf, hbelow⟩ := h
  exact ⟨hle, Memory.wf_mapBlocks hwf f _, Memory.below_mapBlocks hbelow f ((Nat.mul_div_le _ 4).trans hle)⟩

/-- Setting `RES` or raising an error touches neither the length nor the buffer. -/
theorem exec_inv {i : Instr} (h : exec i s = .next t) (hs : s.Inv) : t.Inv := by
  obtain rfl | ⟨-, rfl⟩ | ⟨_, rfl⟩ | ⟨_, rfl⟩ | ⟨_, y, hb, rfl⟩ | rfl | ⟨f, rfl⟩ | ⟨f, rfl⟩ := exec_cases s h
  · exact hs
  · exact s.inv_resetCore
  · exact hs
  · exact hs
  · exact State.inv_writeBlock hs hb y
  · exact State.inv_padMessage hs
  · exact State.inv_mapMessage (State.inv_padMessage hs) f
  · exact State.inv_mapMessage hs f

theorem execWord_inv {w : Word} (h : execWord w s = .next t) (hs : s.Inv) : t.Inv := by
  cases hw : decode w with
  | ok i => exact exec_inv (execWord_of_ok hw ▸ h) hs
  | error e =>
    rw [execWord_of_error hw] at h
    cases h
    exact hs

theorem hostWrite_inv {a : Address} {v : Word} (h : hostWrite a v s = .next t) (hs : s.Inv) : t.Inv := by
  obtain ⟨-, h⟩ | ⟨-, hv, rfl⟩ | ⟨-, rfl⟩ | ⟨-, rfl⟩ | ⟨_, -, rfl⟩ | ⟨i, hloc, rfl⟩ | ⟨-, -, rfl⟩ | ⟨-, rfl⟩ :=
    hostWrite_cases s h
  · exact execWord_inv h hs
  · exact State.inv_setLen hs hv
  · exact hs
  · exact hs
  · exact hs
  · exact State.inv_writeMsg hs (locate_eq_some_iff.1 hloc).2 v
  · exact hs
  · exact hs

theorem transact_inv {x : Transaction} (h : transact x s = .next t) (hs : s.Inv) : t.Inv := by
  cases x with
  | reset =>
    cases h
    exact s.inv_resetCore
  | read a =>
    cases h
    obtain ⟨_, -, hread⟩ | ⟨-, hread⟩ := hostRead_cases s a <;> exact hread ▸ hs
  | write a v => exact hostWrite_inv h hs

end Invariant

/-- Settles O52: the transaction is executed in a state with the same length and buffer. -/
theorem stepKeepsStateInvariant : Obligations.StepKeepsStateInvariant := by
  intro s t hs h
  cases hp : s.pending with
  | nil =>
    rw [step_idle hp] at h
    cases h
    exact hs
  | cons x rest =>
    rw [step_cons hp] at h
    exact transact_inv h hs

end Sys2Proof.Machine

namespace Sys2Proof.Machine

/-! ### The laws of GammaMul (40_modular_arithmetic.md R102) -/

theorem gammaMul_eq_sentinel_iff (g x : Word) : gammaMul g x = sentinel ↔ x = sentinel :=
  ⟨fun h => by_contra fun hx => gammaMul_ne_sentinel g hx h, fun h => h ▸ gammaMul_sentinel g⟩

/-- A first argument that is 0 in the ring, as 0 and `M` are. -/
theorem gammaMul_of_dvd {g x : Word} (hg : modulus ∣ g.toNat) (hx : x ≠ sentinel) : gammaMul g x = 0#32 := by
  rw [gammaMul_of_ne g hx, Nat.mod_eq_zero_of_dvd (Dvd.dvd.mul_right hg _)]

theorem gammaMul_comm {g x : Word} (hg : g ≠ sentinel) (hx : x ≠ sentinel) : gammaMul g x = gammaMul x g := by
  rw [gammaMul_of_ne g hx, gammaMul_of_ne x hg, Nat.mul_comm]

theorem gammaMul_one_left (x : Word) : gammaMul 1#32 x = x := by
  by_cases hx : x = sentinel
  · rw [hx, gammaMul_sentinel]
  · refine eq_of_modEq (gammaMul_ne_sentinel _ hx) hx ?_
    rw [gammaMul_toNat _ hx, BitVec.toNat_ofNat, Nat.one_mod, Nat.one_mul]
    exact Nat.mod_modEq _ _

/-- A rotation left by `k` adds the two halves of the product with `2^k`. -/
theorem rotateLeft_toNat (x : Word) {k : Nat} (hk : k < 32) :
    (x.rotateLeft k).toNat = 2 ^ k * x.toNat % 2 ^ 32 + 2 ^ k * x.toNat / 2 ^ 32 := by
  have hsplit : 2 ^ 32 = 2 ^ k * 2 ^ (32 - k) := by rw [← Nat.pow_add, Nat.add_sub_cancel' hk.le]
  have hupper : x.toNat / 2 ^ (32 - k) < 2 ^ k := Nat.div_lt_of_lt_mul (by rw [Nat.mul_comm, ← hsplit]; exact x.isLt)
  rw [BitVec.toNat_rotateLeft, Nat.mod_eq_of_lt hk, Nat.shiftLeft_eq, Nat.shiftRight_eq_div_pow,
    Nat.mul_comm x.toNat, hsplit, Nat.mul_mod_mul_left, Nat.mul_div_mul_left _ _ (Nat.two_pow_pos k),
    Nat.two_pow_add_eq_or_of_lt hupper]

theorem rotateLeft_modEq (x : Word) {k : Nat} (hk : k < 32) :
    (x.rotateLeft k).toNat ≡ 2 ^ k * x.toNat [MOD modulus] :=
  rotateLeft_toNat x hk ▸ mod_add_div_modEq _

theorem rotateLeft_sentinel {k : Nat} : sentinel.rotateLeft k = sentinel := by
  have hone (i : Nat) (hi : i < 32) : sentinel[i] = true := BitVec.getElem_allOnes i hi
  refine BitVec.eq_of_getElem_eq fun i hi => ?_
  rw [BitVec.getElem_rotateLeft]
  split <;> rw [hone, hone]

/-- `2^k` is a unit, so only 0 rotates to a multiple of `M`, and 0 rotates to 0. -/
theorem rotateLeft_ne_sentinel {x : Word} (hx : x ≠ sentinel) {k : Nat} (hk : k < 32) : x.rotateLeft k ≠ sentinel := by
  intro h
  have hunit : Nat.Coprime modulus (2 ^ k) := Nat.Coprime.pow_right k (by decide)
  have hdvd : modulus ∣ 2 ^ k * x.toNat := by
    rw [← (rotateLeft_modEq x hk).dvd_iff dvd_rfl, h, sentinel_toNat]
  have hzero : x.toNat = 0 := Nat.eq_zero_of_dvd_of_lt (hunit.dvd_of_dvd_mul_left hdvd) ((ne_sentinel_iff x).1 hx)
  have hrot := rotateLeft_toNat x hk
  rw [h, hzero] at hrot
  exact absurd hrot (by simp [sentinel])

theorem two_pow_word_toNat {k : Nat} (hk : k < 32) : (BitVec.ofNat 32 (2 ^ k)).toNat = 2 ^ k := by
  rw [BitVec.toNat_ofNat, Nat.mod_eq_of_lt (Nat.pow_lt_pow_right (by decide) hk)]

theorem gammaMul_two_pow_left (x : Word) {k : Nat} (hk : k < 32) :
    gammaMul (BitVec.ofNat 32 (2 ^ k)) x = x.rotateLeft k := by
  by_cases hx : x = sentinel
  · rw [hx, gammaMul_sentinel, rotateLeft_sentinel]
  · refine eq_of_modEq (gammaMul_ne_sentinel _ hx) (rotateLeft_ne_sentinel hx hk) ?_
    rw [gammaMul_toNat _ hx, two_pow_word_toNat hk]
    exact (Nat.mod_modEq _ _).trans (rotateLeft_modEq x hk).symm

theorem two_pow_word_ne_sentinel {k : Nat} (hk : k < 32) : BitVec.ofNat 32 (2 ^ k) ≠ sentinel := by
  rw [ne_sentinel_iff, two_pow_word_toNat hk]
  exact (Nat.pow_le_pow_right (by decide) (Nat.le_of_lt_succ hk)).trans_lt (by decide : 2 ^ 31 < modulus)

theorem gammaMul_two_pow {g : Word} (hg : g ≠ sentinel) {k : Nat} (hk : k < 32) :
    gammaMul g (BitVec.ofNat 32 (2 ^ k)) = g.rotateLeft k := by
  rw [gammaMul_comm hg (two_pow_word_ne_sentinel hk), gammaMul_two_pow_left g hk]

theorem gammaMul_one {g : Word} (hg : g ≠ sentinel) : gammaMul g 1#32 = g := by
  rw [gammaMul_comm hg (by decide), gammaMul_one_left]

/-- Settles O16: 0 and `M` are both 0 of the ring; a product with `2^k` folds to the rotation. -/
theorem gammaMulLaws : Obligations.GammaMulLaws :=
  ⟨gammaMul_eq_sentinel_iff, gammaMul_zero,
    fun _ hx => ⟨gammaMul_of_dvd (dvd_zero _) hx, gammaMul_of_dvd dvd_rfl hx⟩,
    gammaMul_sentinel _, gammaMul_sentinel _, gammaMul_one_left,
    fun _ => gammaMul_one, gammaMul_of_dvd dvd_rfl (by decide),
    fun _ x _ hk => gammaMul_two_pow_left x hk, fun _ _ _ hk hg => gammaMul_two_pow hg hk⟩

theorem gammaMul_bijective {g : Word} (hg : Nat.gcd g.toNat modulus = 1) : Function.Bijective (gammaMul g) := by
  obtain ⟨v, -, -, -, hinv⟩ := modInverse_modulus hg
  exact Function.bijective_iff_has_inverse.2
    ⟨gammaMul v, gammaMul_gammaMul_of_inverse (Nat.mul_comm _ _ ▸ hinv), gammaMul_gammaMul_of_inverse hinv⟩

/-- A non-unit with `d = gcd(g, M)` multiplies the ring element `M / d` to 0. -/
theorem exists_gammaMul_eq_zero {g : Word} (hg : Nat.gcd g.toNat modulus ≠ 1) :
    ∃ x : Word, x ≠ 0#32 ∧ x ≠ sentinel ∧ gammaMul g x = 0#32 := by
  have hdg : Nat.gcd g.toNat modulus ∣ g.toNat := Nat.gcd_dvd_left _ _
  have hdm : Nat.gcd g.toNat modulus ∣ modulus := Nat.gcd_dvd_right _ _
  generalize Nat.gcd g.toNat modulus = d at hg hdg hdm
  obtain ⟨c, hc⟩ := hdg
  obtain ⟨q, hq⟩ := hdm
  have hq0 : q ≠ 0 := by rintro rfl; exact modulus_pos.ne' hq
  have hd : 1 < d := by
    have : d ≠ 0 := by rintro rfl; rw [Nat.zero_mul] at hq; exact modulus_pos.ne' hq
    omega
  have hlt : q < modulus := hq ▸ lt_mul_left (Nat.pos_of_ne_zero hq0) hd
  have hword : (BitVec.ofNat 32 q).toNat = q := by
    rw [BitVec.toNat_ofNat, Nat.mod_eq_of_lt (hlt.trans (by decide))]
  have hne : BitVec.ofNat 32 q ≠ sentinel := by rwa [ne_sentinel_iff, hword]
  have hmul : modulus ∣ g.toNat * q := ⟨c, by rw [hc, hq]; ring⟩
  refine ⟨BitVec.ofNat 32 q, fun hzero => hq0 ?_, hne, ?_⟩
  · rw [← hword, hzero, BitVec.toNat_zero]
  · rw [gammaMul_of_ne g hne, hword, Nat.mod_eq_zero_of_dvd hmul]

/-- Settles O17: a unit has the inverse permutation; a non-unit multiplies 0 and another ring element to 0. -/
theorem gammaMulBijectiveExactlyForUnits : Obligations.GammaMulBijectiveExactlyForUnits := by
  refine ⟨fun _ => gammaMul_bijective, fun g hg => ?_⟩
  obtain ⟨x, hx0, hx, hprod⟩ := exists_gammaMul_eq_zero hg
  exact ⟨x, 0#32, hx0, hx, by decide, hprod.trans (gammaMul_zero g).symm⟩

/-! ### The constants (10_state.md R29, R30; 41_round_transform.md R131) -/

theorem c0_ne_sentinel (cfg : Config) : cfg.c0 ≠ sentinel := by
  intro h
  have hgcd := cfg.c0_coprime
  rw [h] at hgcd
  exact absurd hgcd (by decide)

/-- Settles O25: the factors are `2^1`, `2^3` and `2^7`. -/
theorem roundConstantsAreRotations : Obligations.RoundConstantsAreRotations := fun cfg =>
  have hc0 := c0_ne_sentinel cfg
  ⟨rfl, gammaMul_two_pow hc0 (k := 1) (by decide), gammaMul_two_pow hc0 (k := 3) (by decide),
    gammaMul_two_pow hc0 (k := 7) (by decide)⟩

/-- Settles O26: every round constant is a unit, so `ModInverse` has a value for it. -/
theorem inverseConstantsInvert : Obligations.InverseConstantsInvert := by
  intro cfg i
  obtain ⟨hval, hpos, hlt, hinv⟩ := inverseConstant_spec cfg i
  exact ⟨gcd_roundConstant cfg i, hval, hpos, Nat.le_sub_one_of_lt hlt, hinv⟩

theorem get_s1inv (cfg : Config) (b : Block) (i : Fin 4) :
    (s1inv cfg b).get i = gammaMul (inverseConstant cfg i) (b.get i) := by
  match i with
  | 0 | 1 | 2 | 3 => rfl

/-- Settles O29: `CI[i]` is the value of `ModInverse` that `InverseGammaMul` multiplies by. -/
theorem stageOneInverseIsInverseGammaMul : Obligations.StageOneInverseIsInverseGammaMul := by
  intro cfg b i
  obtain ⟨hval, -⟩ := inverseConstant_spec cfg i
  rw [get_s1inv, inverseGammaMul_eq_gammaMul hval]

/-- Settles O28: the stages are written out; Stage 2 by its three cases. -/
theorem transformStages : Obligations.TransformStages := fun _ x0 x1 x2 x3 =>
  ⟨rfl, s2_of_x0_odd (b := ⟨x0, x1, x2, x3⟩), s2_of_even_even (b := ⟨x0, x1, x2, x3⟩),
    s2_of_even_odd (b := ⟨x0, x1, x2, x3⟩), rfl, rfl, rfl⟩

/-! ### STATUS (10_state.md R28) -/

/-- Settles O13: the fields of the concatenation, from the lowest. -/
theorem statusRegisterLayout : Obligations.StatusRegisterLayout := by
  intro s i
  rw [State.status, BitVec.getLsbD_append, BitVec.getLsbD_append, BitVec.getLsbD_append, BitVec.getLsbD_zero,
    BitVec.getLsbD_zero]
  by_cases herr : i ≤ 5
  · rw [if_pos (by omega), if_pos herr]
  by_cases hkv : 8 ≤ i ∧ i ≤ 11
  · rw [if_neg (by omega), if_neg (by omega), if_pos (by omega), if_neg herr, if_pos hkv, Nat.sub_sub]
  · rw [if_neg (by omega), if_neg herr, if_neg hkv]
    split
    · rfl
    · rw [if_neg (by omega)]

end Sys2Proof.Machine

namespace Sys2Proof.Machine

/-! ### Whole messages block by block (42_block_driver.md R155, R156, R166) -/

/-- Block `b` of the result is the function's value at block `b` of the input. -/
theorem getElem?_mapWords (f : Block → Block) (m : List Word) {b : Nat} {x0 x1 x2 x3 : Word}
    (h0 : m[4 * b]? = some x0) (h1 : m[4 * b + 1]? = some x1) (h2 : m[4 * b + 2]? = some x2)
    (h3 : m[4 * b + 3]? = some x3) (j : Fin 4) :
    (mapWords f m)[4 * b + j.val]? = some ((f ⟨x0, x1, x2, x3⟩).get j) := by
  fun_induction mapWords f m generalizing b with
  | case1 y0 y1 y2 y3 rest ih =>
    cases b with
    | zero =>
      cases h0
      cases h1
      cases h2
      cases h3
      match j with
      | 0 | 1 | 2 | 3 => rfl
    | succ b =>
      have hindex : 4 * (b + 1) + j.val = 4 * b + j.val + 4 := by omega
      rw [hindex]
      exact ih h0 h1 h2 h3
  | case2 short hshort =>
    obtain ⟨hlt, -⟩ := List.getElem?_eq_some_iff.1 h3
    match short, hlt with
    | y0 :: y1 :: y2 :: y3 :: rest, _ => exact (hshort y0 y1 y2 y3 rest rfl).elim

/-- Settles O40: both functions map the blocks of the padded input, and the empty input has none. -/
theorem messageFunctionsActBlockwise : Obligations.MessageFunctionsActBlockwise := fun cfg k data =>
  ⟨rfl, rfl, length_mapWords (encryptBlock cfg k) (pad data), length_mapWords (decryptBlock cfg k) (pad data),
    fun _ _ _ _ _ h0 h1 h2 h3 j =>
      ⟨getElem?_mapWords (encryptBlock cfg k) (pad data) h0 h1 h2 h3 j,
        getElem?_mapWords (decryptBlock cfg k) (pad data) h0 h1 h2 h3 j⟩⟩

/-! ### ENC followed by DEC, and two runs of ENC (42_block_driver.md R157, R163, R164; 70_reset_and_hazards.md R228) -/

theorem Memory.mapBlocks_mapBlocks_of_leftInverse {m : Memory} (hm : m.wf) {f g : Block → Block}
    (h : Function.LeftInverse g f) (n : Nat) : (m.mapBlocks f n).mapBlocks g n = m := by
  have hwf := Memory.wf_mapBlocks hm f n
  refine Memory.ext (Memory.wf_mapBlocks hwf g n) hm fun i => ?_
  rw [Memory.read_mapBlocks hwf]
  split
  case isTrue hi => rw [Memory.readBlock_mapBlocks hm f hi, h, Memory.get_readBlock]
  case isFalse hi => rw [Memory.read_mapBlocks hm, if_neg hi]

theorem State.mapMessage_mapMessage_of_leftInverse {s : State} (hwf : s.msg.wf) {f g : Block → Block}
    (h : Function.LeftInverse g f) : (s.mapMessage f).mapMessage g = s :=
  State.eq_of_msg rfl (Memory.mapBlocks_mapBlocks_of_leftInverse hwf h _)

/-- Settles O48: `ENC` pads and keeps the key, so `DEC` finds an aligned Message and undoes every block. -/
theorem encThenDecIsPad : Obligations.EncThenDecIsPad := by
  intro s hinv hk
  have ⟨_, hwf, _⟩ := hinv
  have hdec := exec_dec_key (s.padMessage.mapMessage (encryptBlock s.cfg s.key)) hk (State.padMessage_aligned hinv)
  have hundo := State.mapMessage_mapMessage_of_leftInverse (State.padMessage_wf hwf)
    (decryptBlock_encryptBlock s.cfg s.key)
  simp only [execAll, exec_enc_key s hk, hdec]
  exact congrArg Host.Outcome.next hundo

/-- Settles O50: the Message and the length that `ENC` leaves are functions of the configuration, the key, the length
and the old Message. -/
theorem encDependsOnlyOnKeyAndMessage : Obligations.EncDependsOnlyOnKeyAndMessage := by
  intro s s' hinv hinv' hcfg hk hk' hkey hlen hmsg
  obtain ⟨t, ht, -, htlen, htmsg, -⟩ := (encEncryptsMessageInPlace.2 s hinv).2 hk
  obtain ⟨t', ht', -, htlen', htmsg', -⟩ := (encEncryptsMessageInPlace.2 s' hinv').2 hk'
  have hlens : t.len = t'.len := BitVec.toNat_inj.1 (by rw [htlen, htlen', hlen])
  have hold : (List.range s.len.toNat).map s.readMsg = (List.range s'.len.toNat).map s'.readMsg := by
    rw [← hlen]
    exact List.map_inj_left.2 fun i hi => hmsg i (List.mem_range.1 hi)
  have hnew : (List.range t.len.toNat).map t.readMsg = (List.range t.len.toNat).map t'.readMsg := by
    rw [htmsg, hold, hcfg, hkey, ← htmsg', hlens]
  exact ⟨t, t', ht, ht', hlens, fun i hi => List.map_inj_left.1 hnew i (List.mem_range.2 hi)⟩

end Sys2Proof.Machine

namespace Sys2Proof.Machine

/-! ### Frames of the commands (20_memory.md R65, R66) -/

section CommandFrames

variable {s t : State} {i : Instr}

/-- A command of the Modular Arithmetic Engine writes `RES` or raises an error. -/
theorem exec_mae_cases (hi : i = .gmul ∨ i = .ginv ∨ i = .minv) (h : exec i s = .next t) :
    (∃ v, t = s.setRes v) ∨ ∃ e, t = s.raise e := by
  obtain rfl | rfl | rfl := hi
  · cases h
    exact .inl ⟨_, rfl⟩
  · cases hv : inverseGammaMul s.gamma s.opx with
    | some v =>
      cases (exec_ginv_some hv).symm.trans h
      exact .inl ⟨v, rfl⟩
    | none =>
      cases (exec_ginv_none hv).symm.trans h
      exact .inr ⟨_, rfl⟩
  · cases hv : modInverse s.gamma.toNat s.opx.toNat with
    | some n =>
      cases (exec_minv_ofNat hv).symm.trans h
      exact .inl ⟨_, rfl⟩
    | none =>
      cases (exec_minv_none hv).symm.trans h
      exact .inr ⟨_, rfl⟩

/-- `t` is `s` with an error raised or with block `b` written. -/
def RaisesOrWritesBlock (s : State) (b : Nat) (t : State) : Prop := (∃ e, t = s.raise e) ∨ ∃ y, t = s.writeBlock b y

theorem RaisesOrWritesBlock.write {b : Nat} {y : Block} : RaisesOrWritesBlock s b (s.writeBlock b y) := .inr ⟨y, rfl⟩

/-- A check of a block command. -/
theorem RaisesOrWritesBlock.check {b : Nat} {e : ErrorKind} {c : Prop} [Decidable c] (h : RaisesOrWritesBlock s b t) :
    RaisesOrWritesBlock s b (if c then s.raise e else t) :=
  iteInduction (fun _ => .inl ⟨e, rfl⟩) fun _ => h

theorem exec_block_cases {b : Nat}
    (hi : i = .xfrm b ∨ i = .ixfrm b ∨ i = .encb b ∨ i = .decb b ∨ ∃ r, i = .kxor b r) (h : exec i s = .next t) :
    RaisesOrWritesBlock s b t := by
  obtain rfl | rfl | rfl | rfl | ⟨r, rfl⟩ := hi <;> cases h
  · exact .check .write
  · exact .check .write
  · exact .check (.check .write)
  · exact .check (.check .write)
  · exact .check (.check (.check .write))

end CommandFrames

/-- An update of the registers of the Modular Arithmetic Engine and of the host's list, each from its own value. -/
def State.mapOthers (s : State) (fg fx fr : Word → Word) (fp : List Transaction → List Transaction) : State :=
  { s with gamma := fg s.gamma, opx := fx s.opx, res := fr s.res, pending := fp s.pending }

/-- Every command but the three MAE commands and `SRST` neither reads nor writes what such an update changes. -/
theorem exec_mapOthers {s t : State} {i : Instr} (h : exec i s = .next t) (hg : i ≠ .gmul) (hn : i ≠ .ginv)
    (hm : i ≠ .minv) (hs : i ≠ .srst) (fg fx fr : Word → Word) (fp : List Transaction → List Transaction) :
    exec i (s.mapOthers fg fx fr fp) = .next (t.mapOthers fg fx fr fp) := by
  cases i with
  | gmul => exact absurd rfl hg
  | ginv => exact absurd rfl hn
  | minv => exact absurd rfl hm
  | srst => exact absurd rfl hs
  | nop | pad =>
    cases h
    rfl
  | xfrm | ixfrm | kxor | encb | decb | enc | dec =>
    cases h
    simp only [apply_ite (State.mapOthers · fg fx fr fp)]
    rfl

section MessageCommands

variable {s t : State}

theorem exec_enc_cases (h : exec .enc s = .next t) :
    t = s.raise .key ∨ t = s.padMessage.mapMessage (encryptBlock s.cfg s.key) := by
  by_cases hk : s.kv = 0b1111#4
  · exact .inr (Host.Outcome.next.inj (h.symm.trans (exec_enc_key s hk)))
  · exact .inl (Host.Outcome.next.inj (h.symm.trans (exec_enc_noKey s hk)))

theorem exec_dec_cases (h : exec .dec s = .next t) :
    (∃ e, t = s.raise e) ∨ (s.len.toNat % 4 = 0 ∧ t = s.mapMessage (decryptBlock s.cfg s.key)) := by
  by_cases hk : s.kv = 0b1111#4
  · by_cases hl : s.len.toNat % 4 = 0
    · exact .inr ⟨hl, Host.Outcome.next.inj (h.symm.trans (exec_dec_key s hk hl))⟩
    · exact .inl ⟨_, Host.Outcome.next.inj (h.symm.trans (exec_dec_misaligned s hk hl))⟩
  · exact .inl ⟨_, Host.Outcome.next.inj (h.symm.trans (exec_dec_noKey s hk))⟩

/-- Words from the padded length on are none of the padded Message, whatever the length. -/
theorem State.readMsg_padMessage_mapMessage_of_le (hwf : s.msg.wf) (f : Block → Block) {j : Nat}
    (hj : s.len.toNat + padAmount s.len.toNat ≤ j) : (s.padMessage.mapMessage f).readMsg j = s.readMsg j := by
  have hlen : s.padMessage.len.toNat ≤ s.len.toNat + padAmount s.len.toNat := by
    rw [State.padMessage_len, BitVec.toNat_ofNat]
    exact Nat.mod_le _ _
  rw [State.readMsg_mapMessage (State.padMessage_wf hwf), if_neg (by omega), State.readMsg_padMessage hwf,
    if_neg (by omega)]

end MessageCommands

/-- Settles O51: each kind of command by what it can do; the last clause updates the three registers alone. -/
theorem commandFrames : Obligations.CommandFrames := by
  intro s t i hwf h
  refine ⟨fun hi => ?nop, fun hi => ?mae, fun ⟨b, hi⟩ => ?block, fun b hi j hj => ?otherBlocks, fun hi => ?message,
    fun hi j hj => ?padWords, fun hi j hj => ?encWords, fun hi => ?dec, fun hg hn hm hs g x r => ?others⟩
  case nop =>
    subst hi
    cases h
    rfl
  case mae => obtain ⟨v, rfl⟩ | ⟨e, rfl⟩ := exec_mae_cases hi h <;> rfl
  case block => obtain ⟨e, rfl⟩ | ⟨y, rfl⟩ := exec_block_cases hi h <;> rfl
  case otherBlocks =>
    obtain ⟨e, rfl⟩ | ⟨y, rfl⟩ := exec_block_cases hi h
    · rfl
    · exact State.readMsg_writeBlock_of_outside hwf y hj
  case message =>
    obtain rfl | rfl := hi
    · cases h
      rfl
    · obtain rfl | rfl := exec_enc_cases h <;> rfl
  case padWords =>
    subst hi
    cases h
    change _ ∨ s.len.toNat + padAmount s.len.toNat ≤ j at hj
    rw [State.readMsg_padMessage hwf, if_neg (by omega)]
  case encWords =>
    subst hi
    obtain rfl | rfl := exec_enc_cases h
    · rfl
    · exact State.readMsg_padMessage_mapMessage_of_le hwf _ hj
  case dec =>
    subst hi
    obtain ⟨e, rfl⟩ | ⟨hl, rfl⟩ := exec_dec_cases h
    · exact ⟨rfl, fun _ _ => rfl⟩
    · exact ⟨rfl, fun _ => State.readMsg_mapMessage_of_le hwf hl _⟩
  case others => exact exec_mapOthers h hg hn hm hs (fun _ => g) (fun _ => x) (fun _ => r) id

end Sys2Proof.Machine

namespace Sys2Proof.Machine

/-! ### The transactions that follow (20_memory.md R60; 60_exceptions.md R207) -/

section LaterTransactions

variable {s t : State}

/-- No command reads or writes the host's list of transactions. -/
theorem exec_withPending {i : Instr} (h : exec i s = .next t) (p : List Transaction) :
    exec i { s with pending := p } = .next { t with pending := p } := by
  cases i with
  | srst | gmul =>
    cases h
    rfl
  | ginv =>
    cases hv : inverseGammaMul s.gamma s.opx with
    | some v =>
      cases (exec_ginv_some hv).symm.trans h
      exact exec_ginv_some (s := { s with pending := p }) hv
    | none =>
      cases (exec_ginv_none hv).symm.trans h
      exact exec_ginv_none (s := { s with pending := p }) hv
  | minv =>
    cases hv : modInverse s.gamma.toNat s.opx.toNat with
    | some n =>
      cases (exec_minv_ofNat hv).symm.trans h
      exact exec_minv_ofNat (s := { s with pending := p }) hv
    | none =>
      cases (exec_minv_none hv).symm.trans h
      exact exec_minv_none (s := { s with pending := p }) hv
  | nop | xfrm | ixfrm | kxor | encb | decb | pad | enc | dec =>
    exact exec_mapOthers h nofun nofun nofun nofun id id id fun _ => p

theorem execWord_withPending {w : Word} (h : execWord w s = .next t) (p : List Transaction) :
    execWord w { s with pending := p } = .next { t with pending := p } := by
  cases hw : decode w with
  | ok i => exact (execWord_of_ok hw).trans (exec_withPending (execWord_of_ok hw ▸ h) p)
  | error e =>
    cases (execWord_of_error hw).symm.trans h
    exact execWord_of_error hw

theorem hostWrite_withPending {a : Address} {v : Word} (h : hostWrite a v s = .next t) (p : List Transaction) :
    hostWrite a v { s with pending := p } = .next { t with pending := p } := by
  obtain ⟨hl, h⟩ | ⟨hl, hv, rfl⟩ | ⟨hl, rfl⟩ | ⟨hl, rfl⟩ | ⟨i, hl, rfl⟩ | ⟨i, hl, rfl⟩ | ⟨hl, hv, rfl⟩ | ⟨hro, rfl⟩ :=
    hostWrite_cases s h
  · exact (hostWrite_cmd (s := { s with pending := p }) hl).trans (execWord_withPending h p)
  · exact (hostWrite_len (s := { s with pending := p }) hl).trans (congrArg Host.Outcome.next (if_pos hv))
  · exact hostWrite_gamma hl
  · exact hostWrite_opx hl
  · exact hostWrite_key hl
  · exact hostWrite_msg hl
  · exact (hostWrite_len (s := { s with pending := p }) hl).trans (congrArg Host.Outcome.next (State.writeLen_of_lt hv))
  · exact hostWrite_unwritable hro

theorem transact_withPending {x : Transaction} (h : transact x s = .next t) (p : List Transaction) :
    transact x { s with pending := p } = .next { t with pending := p } := by
  cases x with
  | reset =>
    cases h
    rfl
  | read a =>
    cases h
    cases hl : locate s.cfg a with
    | some l =>
      have hread := State.hostRead_mapped (s := { s with pending := p }) hl
      rw [State.readLocation_pending] at hread
      rw [State.hostRead_mapped hl]
      exact congrArg Host.Outcome.next hread
    | none =>
      rw [State.hostRead_unmapped hl]
      exact congrArg Host.Outcome.next (State.hostRead_unmapped (s := { s with pending := p }) hl)
  | write a v => exact hostWrite_withPending h p

end LaterTransactions

/-- Settles O9: by induction on the earlier transactions, each of which takes the same step whatever follows it. -/
theorem transactionsUnaffectedByLaterOnes : Obligations.TransactionsUnaffectedByLaterOnes := by
  intro s first later
  induction first generalizing s with
  | nil => exact ⟨s, rfl, rfl, fun n => by rw [List.length_nil, Nat.zero_add, List.nil_append]⟩
  | cons x xs ih =>
    obtain ⟨u, hu⟩ := transact_next s x
    have hstep (p : List Transaction) : step { s with pending := x :: p } = .next { u with pending := p } :=
      (step_cons rfl).trans (transact_withPending hu p)
    obtain ⟨t, halone, hfollowed, hrun⟩ := ih u
    refine ⟨t, (runSteps_succ _ (hstep xs)).trans halone, (runSteps_succ _ (hstep (xs ++ later))).trans hfollowed,
      fun n => ?_⟩
    rw [List.length_cons, Nat.add_right_comm]
    exact (runSteps_succ _ (hstep (xs ++ later))).trans (hrun n)

theorem length_readAddresses_take_one (p : List Transaction) :
    ((∃ a rest, p = .read a :: rest) → (readAddresses (p.take 1)).length = 1) ∧
    ((¬ ∃ a rest, p = .read a :: rest) → (readAddresses (p.take 1)).length = 0) := by
  match p with
  | [] | .reset :: _ | .write _ _ :: _ => exact ⟨by simp, fun _ => rfl⟩
  | .read a :: rest => exact ⟨fun _ => rfl, fun h => absurd ⟨a, rest, rfl⟩ h⟩

/-- Settles O8: one step as a run of one transaction, with one answer for each read among it. -/
theorem everyStepHasSuccessor : Obligations.EveryStepHasSuccessor := by
  intro s
  obtain ⟨t, g, vs, hpending, hrun, -, hanswers⟩ := step_uniformRun s
  have hlen : (answersAt vs s.errors).length = (readAddresses (s.pending.take 1)).length :=
    (List.length_map _).trans hanswers.length_eq.symm
  obtain ⟨hread, hother⟩ := length_readAddresses_take_one s.pending
  refine ⟨step_idle, _, hrun s.errors s.returned, ?_, answersAt vs s.errors, rfl, fun h => hlen.trans (hread h),
    fun h => List.length_eq_zero_iff.1 (hlen.trans (hother h))⟩
  exact hpending.trans List.drop_one

end Sys2Proof.Machine

namespace Sys2Proof.Machine

/-! ### The input registers (10_state.md R21, R22, R25, R26) -/

/-- The key registers, the key-valid bits, `GAMMA` and `OPX` are the same in both states. -/
def SameInputs (s t : State) : Prop := t.key = s.key ∧ t.kv = s.kv ∧ t.gamma = s.gamma ∧ t.opx = s.opx

theorem SameInputs.refl (s : State) : SameInputs s s := ⟨rfl, rfl, rfl, rfl⟩

section InputRegisters

variable {s t : State}

theorem exec_sameInputs {i : Instr} (hi : i ≠ .srst) (h : exec i s = .next t) : SameInputs s t := by
  obtain rfl | ⟨hsrst, -⟩ | ⟨_, rfl⟩ | ⟨_, rfl⟩ | ⟨_, _, -, rfl⟩ | rfl | ⟨_, rfl⟩ | ⟨_, rfl⟩ := exec_cases s h
  · exact .refl t
  · exact absurd hsrst hi
  all_goals exact ⟨rfl, rfl, rfl, rfl⟩

/-- A Word other than that of `SRST` executes another command or raises `E_ILLEGAL`. -/
theorem execWord_cases {w : Word} (hw : w ≠ 0x01000000#32) (h : execWord w s = .next t) :
    (∃ i, i ≠ .srst ∧ exec i s = .next t) ∨ t = s.raise .illegal := by
  cases hd : decode w with
  | ok i => exact .inl ⟨i, fun hi => hw (eq_srst_word (hi ▸ hd)), execWord_of_ok hd ▸ h⟩
  | error e => exact .inr (Host.Outcome.next.inj (h.symm.trans (execWord_of_error hd)))

theorem ne_srst_word {a : Address} {v : Word} (hl : locate s.cfg a = some .cmd)
    (hx : ¬ (Transaction.write a v).ClearsErrors) : v ≠ 0x01000000#32 :=
  fun hv => hx (.inr (by rw [eq_commandAddress hl, hv]))

/-- A transaction that is no reset writes one input register, as the host write of it, or none. -/
theorem transact_inputs {x : Transaction} (hx : ¬ x.ClearsErrors) (h : transact x s = .next t) : SameInputs s t ∨
    (∃ a v i, x = .write a v ∧ a.toNat = 0x00008 + i.val ∧ t = s.writeKey i v) ∨
    (∃ v, x = .write 0x00003#19 v ∧ t = s.setGamma v) ∨ ∃ v, x = .write 0x00004#19 v ∧ t = s.setOpx v := by
  cases x with
  | reset => exact absurd (.inl rfl) hx
  | read a =>
    cases h
    obtain ⟨_, -, hread⟩ | ⟨-, hread⟩ := hostRead_cases s a <;> exact hread ▸ .inl ⟨rfl, rfl, rfl, rfl⟩
  | write a v =>
    obtain ⟨hl, h⟩ | ⟨-, -, rfl⟩ | ⟨hl, rfl⟩ | ⟨hl, rfl⟩ | ⟨i, hl, rfl⟩ | ⟨_, -, rfl⟩ | ⟨-, -, rfl⟩ | ⟨-, rfl⟩ :=
      hostWrite_cases s h
    · obtain ⟨i, hi, h⟩ | rfl := execWord_cases (ne_srst_word hl hx) h
      · exact .inl (exec_sameInputs hi h)
      · exact .inl ⟨rfl, rfl, rfl, rfl⟩
    · exact .inl ⟨rfl, rfl, rfl, rfl⟩
    · obtain rfl : a = 0x00003#19 := BitVec.toNat_inj.1 (locate_eq_some_iff.1 hl).1
      exact .inr (.inr (.inl ⟨v, rfl, rfl⟩))
    · obtain rfl : a = 0x00004#19 := BitVec.toNat_inj.1 (locate_eq_some_iff.1 hl).1
      exact .inr (.inr (.inr ⟨v, rfl, rfl⟩))
    · exact .inr (.inl ⟨a, v, i, rfl, (locate_eq_some_iff.1 hl).1, rfl⟩)
    all_goals exact .inl ⟨rfl, rfl, rfl, rfl⟩

/-- The next transaction is `RESET` or writes the command word of `SRST`. -/
def State.ResetsNext (s : State) : Prop :=
  ∃ rest, s.pending = .reset :: rest ∨ s.pending = .write 0x00000#19 0x01000000#32 :: rest

theorem State.resetsNext_iff {x : Transaction} {rest : List Transaction} (hp : s.pending = x :: rest) :
    s.ResetsNext ↔ x.ClearsErrors := by
  simp only [State.ResetsNext, Transaction.ClearsErrors, hp, List.cons.injEq, ← or_and_right, exists_and_left,
    exists_eq', and_true]

theorem step_of_resetsNext (hr : s.ResetsNext) : ∃ rest, step s = .next { s.resetCore with pending := rest } := by
  obtain ⟨rest, hp | hp⟩ := hr
  · exact ⟨rest, (step_cons hp).trans (transact_of_clearsErrors (.inl rfl) _)⟩
  · exact ⟨rest, (step_cons hp).trans (transact_of_clearsErrors (.inr rfl) _)⟩

/-- `transact_inputs` for a step, whose transaction is consumed. -/
theorem step_inputs (hr : ¬ s.ResetsNext) (h : step s = .next t) : SameInputs s t ∨
    (∃ a v i rest, s.pending = .write a v :: rest ∧ a.toNat = 0x00008 + i.val ∧
      t = { s.writeKey i v with pending := rest }) ∨
    (∃ v rest, s.pending = .write 0x00003#19 v :: rest ∧ t = { s.setGamma v with pending := rest }) ∨
    ∃ v rest, s.pending = .write 0x00004#19 v :: rest ∧ t = { s.setOpx v with pending := rest } := by
  cases hp : s.pending with
  | nil =>
    rw [step_idle hp] at h
    cases h
    exact .inl (.refl s)
  | cons x rest =>
    rw [step_cons hp] at h
    obtain hsame | ⟨a, v, i, rfl, ha, rfl⟩ | ⟨v, rfl, rfl⟩ | ⟨v, rfl, rfl⟩ :=
      transact_inputs (mt (State.resetsNext_iff hp).2 hr) h
    · exact .inl hsame
    · exact .inr (.inl ⟨a, v, i, rest, rfl, ha, rfl⟩)
    · exact .inr (.inr (.inl ⟨v, rest, rfl, rfl⟩))
    · exact .inr (.inr (.inr ⟨v, rest, rfl, rfl⟩))

end InputRegisters

theorem Block.get_set (b : Block) (i j : Fin 4) (v : Word) : (b.set j v).get i = if i = j then v else b.get i := by
  fin_cases i <;> fin_cases j <;> rfl

theorem getLsbD_or_bit (kv : BitVec 4) (i j : Fin 4) :
    (kv ||| (1#4 <<< j.val)).getLsbD i.val = (kv.getLsbD i.val || decide (i = j)) := by
  have hbit : ∀ i j : Fin 4, (1#4 <<< j.val).getLsbD i.val = decide (i = j) := by decide
  rw [BitVec.getLsbD_or, hbit]

/-- Settles O55: only the host write of a register changes it, to the Word written. -/
theorem onlyHostWritesChangeInputRegisters : Obligations.OnlyHostWritesChangeInputRegisters := by
  refine ⟨fun s t i => exec_sameInputs, fun s t h => or_iff_not_imp_left.2 fun hr => ?_⟩
  obtain ⟨hkey, hkv, hgamma, hopx⟩ | ⟨a, v, j, rest, hp, ha, rfl⟩ | ⟨v, rest, hp, rfl⟩ | ⟨v, rest, hp, rfl⟩ :=
    step_inputs hr h
  · exact ⟨fun i hi => absurd (by rw [hkey]) hi, fun i hi => absurd (by rw [hkv]) hi, fun hg => absurd hgamma hg,
      fun ho => absurd hopx ho⟩
  · refine ⟨fun i hi => ?key, fun i hi => ?keyValid, fun hg => absurd rfl hg, fun ho => absurd rfl ho⟩
    case key =>
      rw [State.writeKey_key, Block.get_set] at hi
      obtain rfl : i = j := by_contra fun hij => hi (if_neg hij)
      exact ⟨a, v, rest, hp, ha, by rw [State.writeKey_key, Block.get_set, if_pos rfl]⟩
    case keyValid =>
      rw [State.writeKey_kv, getLsbD_or_bit] at hi
      obtain rfl : i = j := by_contra fun hij => hi (by rw [decide_eq_false hij, Bool.or_false])
      exact ⟨a, v, rest, hp, ha, by rw [State.writeKey_kv, getLsbD_or_bit, decide_eq_true rfl, Bool.or_true]⟩
  · exact ⟨fun i hi => absurd rfl hi, fun i hi => absurd rfl hi, fun _ => ⟨v, rest, hp, rfl⟩,
      fun ho => absurd rfl ho⟩
  · exact ⟨fun i hi => absurd rfl hi, fun i hi => absurd rfl hi, fun hg => absurd rfl hg,
      fun _ => ⟨v, rest, hp, rfl⟩⟩

/-- Settles O54: a write of `K[i]` sets the bit, a reset clears it, and any other step keeps it. -/
theorem keyValidBitsTrackKeyWrites : Obligations.KeyValidBitsTrackKeyWrites := by
  intro s t i h
  by_cases hkey : ∃ a v rest, s.pending = .write a v :: rest ∧ a.toNat = 0x00008 + i.val
  · have ⟨a, v, rest, hp, ha⟩ := hkey
    cases (step_write_key hp i ha).symm.trans h
    exact iff_of_true (by rw [getLsbD_or_bit, decide_eq_true rfl, Bool.or_true]) (.inl hkey)
  by_cases hr : s.ResetsNext
  · obtain ⟨rest, hstep⟩ := step_of_resetsNext hr
    cases hstep.symm.trans h
    have hclear : (0#4).getLsbD i.val ≠ true := by rw [BitVec.getLsbD_zero]; decide
    exact iff_of_false hclear fun hset => hset.elim hkey fun hkept => hkept.2 hr
  · have hkept : t.kv.getLsbD i.val = s.kv.getLsbD i.val := by
      obtain ⟨-, hkv, -⟩ | ⟨a, v, j, rest, hp, ha, rfl⟩ | ⟨v, rest, -, rfl⟩ | ⟨v, rest, -, rfl⟩ := step_inputs hr h
      · rw [hkv]
      · have hij : i ≠ j := by
          rintro rfl
          exact hkey ⟨a, v, rest, hp, ha⟩
        rw [State.writeKey_kv, getLsbD_or_bit, decide_eq_false hij, Bool.or_false]
      · rfl
      · rfl
    rw [hkept]
    exact ⟨fun hset => .inr ⟨hset, hr⟩, fun hset => (hset.resolve_left hkey).1⟩

/-! ### One error at most (60_exceptions.md R190, R207) -/

section Errors

variable {s t : State}

theorem exec_errors {i : Instr} (hi : i ≠ .srst) (h : exec i s = .next t) :
    t.errors = s.errors ∨ ∃ e, t = s.raise e := by
  obtain rfl | ⟨hsrst, -⟩ | ⟨_, rfl⟩ | ⟨e, rfl⟩ | ⟨_, _, -, rfl⟩ | rfl | ⟨_, rfl⟩ | ⟨_, rfl⟩ := exec_cases s h
  · exact .inl rfl
  · exact absurd hsrst hi
  · exact .inl rfl
  · exact .inr ⟨e, rfl⟩
  all_goals exact .inl rfl

theorem hostWrite_errors {a : Address} {v : Word} (hx : ¬ (Transaction.write a v).ClearsErrors)
    (h : hostWrite a v s = .next t) : t.errors = s.errors ∨ ∃ e, t = s.raise e := by
  obtain ⟨hl, h⟩ | ⟨-, -, rfl⟩ | ⟨-, rfl⟩ | ⟨-, rfl⟩ | ⟨_, -, rfl⟩ | ⟨_, -, rfl⟩ | ⟨-, -, rfl⟩ | ⟨-, rfl⟩ :=
    hostWrite_cases s h
  · obtain ⟨i, hi, h⟩ | rfl := execWord_cases (ne_srst_word hl hx) h
    · exact exec_errors hi h
    · exact .inr ⟨_, rfl⟩
  · exact .inl rfl
  · exact .inl rfl
  · exact .inl rfl
  · exact .inl rfl
  · exact .inl rfl
  · exact .inr ⟨_, rfl⟩
  · exact .inr ⟨_, rfl⟩

/-- Raising an error whose bit is set already changes nothing. -/
theorem State.raise_of_set {e : ErrorKind} (h : s.errors.getLsbD e.code = true) : s.raise e = s := by
  have hor : s.errors ||| e.mask = s.errors := by
    refine BitVec.eq_of_getLsbD_eq fun i _ => ?_
    rw [BitVec.getLsbD_or, ErrorKind.getLsbD_mask]
    by_cases hi : i = e.code
    · rw [hi, h, Bool.true_or]
    · rw [decide_eq_false hi, Bool.or_false]
  rw [State.raise, hor]

theorem ErrorKind.mask_eq (e : ErrorKind) : e.mask = BitVec.ofNat 6 (2 ^ e.code) := by cases e <;> rfl

/-- Raising an error leaves the error bits, or sets one that was clear and changes nothing else. -/
theorem State.raise_errors_precise (s : State) (e : ErrorKind) : (s.raise e).errors = s.errors ∨
    (e.code < 6 ∧ s.errors.getLsbD e.code = false ∧
      s.raise e = { s with errors := s.errors ||| BitVec.ofNat 6 (2 ^ e.code) }) := by
  cases hset : s.errors.getLsbD e.code with
  | true => exact .inl (congrArg State.errors (State.raise_of_set hset))
  | false => exact .inr ⟨e.code_lt, rfl, by rw [← e.mask_eq, State.raise]⟩

end Errors

/-- Settles O56: a transaction that is no reset raises one error at most, and then does nothing else. -/
theorem transactionRaisesAtMostOneErrorPrecisely : Obligations.TransactionRaisesAtMostOneErrorPrecisely := by
  intro s x rest hp
  obtain ⟨t, ht⟩ := transact_next { s with pending := rest } x
  refine ⟨t, (step_cons hp).trans ht, ?_⟩
  by_cases hx : x.ClearsErrors
  · cases (transact_of_clearsErrors hx _).symm.trans ht
    exact .inr (.inl ⟨hx, rfl⟩)
  cases x with
  | reset => exact absurd (.inl rfl) hx
  | read a =>
    cases ht
    obtain ⟨l, -, hread⟩ | ⟨-, hread⟩ := hostRead_cases { s with pending := rest } a
    · rw [hread]
      exact .inl rfl
    · rw [hread]
      refine (State.raise_errors_precise { s with pending := rest } .addr).imp id fun ⟨hlt, hclear, hraise⟩ => .inr ?_
      exact ⟨_, hlt, hclear, [0#32], congrArg (State.respond · 0#32) hraise, fun _ => rfl,
        fun hno => absurd ⟨a, rfl⟩ hno⟩
  | write a v =>
    obtain hkept | ⟨e, rfl⟩ := hostWrite_errors hx ht
    · exact .inl hkept
    · refine (State.raise_errors_precise { s with pending := rest } e).imp id fun ⟨hlt, hclear, hraise⟩ => .inr ?_
      have hout : s.returned ++ [] = s.returned := List.append_nil _
      exact ⟨_, hlt, hclear, [], by rw [hraise, hout], nofun, fun _ => rfl⟩

end Sys2Proof.Machine

namespace Sys2Proof.Machine

/-! ### Written values read back (70_reset_and_hazards.md R224) -/

section WriteThenRead

variable {s u : State} {a : Address} {v : Word} {rest : List Transaction}

theorem hostWrite_len_of_le (hl : locate s.cfg a = some .len) (hv : v.toNat ≤ s.cfg.msgWords) :
    hostWrite a v s = .next { s with len := v } := by
  rw [hostWrite_len hl, State.writeLen_of_le hv]

/-- A write that leaves `v` at its location and records nothing, followed by a read of the same address. -/
theorem runSteps_write_read (hp : s.pending = .write a v :: .read a :: rest) (l : Location) (ha : a.toNat = l.offset)
    (hl : l.present s.cfg) (hw : hostWrite a v { s with pending := .read a :: rest } = .next u)
    (hv : u.readLocation l = v) (hret : u.returned = s.returned) (herr : u.errors = s.errors) :
    ∃ t, runSteps 2 s = .next t ∧ t.returned = s.returned ++ [v] ∧ t.pending = rest ∧ t.errors = s.errors := by
  have hcfg : u.cfg = s.cfg := hostWrite_cfg (s := { s with pending := .read a :: rest }) hw
  have hpu : u.pending = .read a :: rest := transact_pending (x := .write a v) hw
  have hwrite : step s = .next u := (step_write hp).trans hw
  have hread := step_read_at hpu l ha (hcfg ▸ hl) hv.symm
  exact ⟨_, (runSteps_succ 1 hwrite).trans (runSteps_succ 0 hread), by rw [hret], rfl, herr⟩

end WriteThenRead

/-- Settles O12: the write of each of the locations leaves the Word there and touches neither answers nor error bits. -/
theorem writtenValueReadBackNext : Obligations.WrittenValueReadBackNext := by
  intro s a v rest hwf hp haddr
  have located {l : Location} (ha : a.toNat = l.offset) (hl : l.present s.cfg) : locate s.cfg a = some l :=
    locate_eq_some_iff.2 ⟨ha, hl⟩
  obtain ⟨ha, hv⟩ | ha | ha | ⟨hlo, hhi⟩ | ⟨hlo, hhi⟩ := haddr
  · exact runSteps_write_read hp .len ha trivial (hostWrite_len_of_le (located (l := .len) ha trivial) hv) rfl rfl rfl
  · exact runSteps_write_read hp .gamma ha trivial (hostWrite_gamma (located (l := .gamma) ha trivial)) rfl rfl rfl
  · exact runSteps_write_read hp .opx ha trivial (hostWrite_opx (located (l := .opx) ha trivial)) rfl rfl rfl
  · obtain ⟨i, ha⟩ : ∃ i : Fin 4, a.toNat = 0x00008 + i.val := ⟨⟨a.toNat - 0x00008, by omega⟩, by simp only; omega⟩
    refine runSteps_write_read hp (.key i) ha trivial (hostWrite_key (located (l := .key i) ha trivial)) ?_ rfl rfl
    exact (Block.get_set s.key i i v).trans (if_pos rfl)
  · obtain ⟨i, ha⟩ : ∃ i, a.toNat = 0x40000 + i := Nat.exists_eq_add_of_le hlo
    have hi : i < s.cfg.msgWords := by omega
    refine runSteps_write_read hp (.msg i) ha hi (hostWrite_msg (located (l := .msg i) ha hi)) ?_ rfl rfl
    exact (Memory.read_write hwf i i v).trans (if_pos rfl)

/-! ### The pseudo-instructions (30_encoding.md R90) -/

section PseudoInstructions

variable {s u : State} {rest : List Transaction}

theorem step_write_gamma {g : Word} (hp : s.pending = .write gammaAddress g :: rest) :
    step s = .next { s with pending := rest, gamma := g } := by
  have hl : locate s.cfg gammaAddress = some .gamma := rfl
  exact (step_write hp).trans (hostWrite_gamma hl)

theorem step_write_opx {x : Word} (hp : s.pending = .write opxAddress x :: rest) :
    step s = .next { s with pending := rest, opx := x } := by
  have hl : locate s.cfg opxAddress = some .opx := rfl
  exact (step_write hp).trans (hostWrite_opx hl)

theorem step_write_len {n : Word} (hp : s.pending = .write lenAddress n :: rest) (hn : n.toNat ≤ s.cfg.msgWords) :
    step s = .next { s with pending := rest, len := n } := by
  have hl : locate s.cfg lenAddress = some .len := rfl
  exact (step_write hp).trans (hostWrite_len_of_le hl hn)

/-- The registers loaded, one command, and the read of `RES`. -/
theorem runSteps_load_command_read {g x : Word} {i : Instr} (hi : i.WellFormed)
    (hp : s.pending = .write gammaAddress g :: .write opxAddress x :: command i :: .read resAddress :: rest)
    (h : exec i { s with pending := .read resAddress :: rest, gamma := g, opx := x } = .next u) :
    runSteps 4 s = .next { u with pending := rest, returned := u.returned ++ [u.res] } := by
  have hread : step u = .next { u with pending := rest, returned := u.returned ++ [u.res] } :=
    step_read_at (exec_pending h) .res rfl trivial rfl
  rw [runSteps_succ 3 (step_write_gamma hp), runSteps_succ 2 (step_write_opx rfl),
    runSteps_succ 1 ((step_write_ok (decodeOfEncodeIsIdentity i hi) rfl).trans h), runSteps_succ 0 hread, runSteps_zero]

end PseudoInstructions

/-- Settles O60: the command finds the two registers loaded; `INVQ` takes the modulus `M`. -/
theorem mulqAndInvqReturnResults : Obligations.MulqAndInvqReturnResults := by
  refine fun s => ⟨fun g x rest hp => ?mulq, fun a rest hgcd hp => ?unit, fun a rest hgcd hp => ?nonUnit⟩
  case mulq => exact runSteps_load_command_read rfl hp (exec_gmul _)
  case unit =>
    obtain ⟨v, hv, -, hlt, hinv⟩ := modInverse_modulus hgcd
    have hone : gammaMul a v = 1#32 :=
      BitVec.eq_of_toNat_eq ((gammaMul_toNat a ((ne_sentinel_iff v).2 hlt)).trans hinv)
    exact ⟨v, hone, runSteps_load_command_read rfl hp (exec_minv_some hv)⟩
  case nonUnit => exact runSteps_load_command_read rfl hp (exec_minv_none (modInverse_eq_none (.inr hgcd)))

theorem or_four_bits (kv : BitVec 4) :
    kv ||| (1#4 <<< 0) ||| (1#4 <<< 1) ||| (1#4 <<< 2) ||| (1#4 <<< 3) = 0b1111#4 := by
  revert kv
  decide

theorem runSteps_setKey {s : State} {k : Key} {rest : List Transaction} (hp : s.pending = setKey k ++ rest) :
    runSteps 4 s = .next { s with pending := rest, key := k, kv := 0b1111#4 } := by
  rw [runSteps_succ 3 (step_write_key hp 0 rfl), runSteps_succ 2 (step_write_key rfl 1 rfl),
    runSteps_succ 1 (step_write_key rfl 2 rfl), runSteps_succ 0 (step_write_key rfl 3 rfl), runSteps_zero]
  exact congrArg (fun kv => Host.Outcome.next { s with pending := rest, key := k, kv := kv }) (or_four_bits s.kv)

theorem msgAddress_toNat {i : Nat} (hi : i < 262144) : (msgAddress i).toNat = 0x40000 + i := by
  rw [msgAddress, BitVec.toNat_add, BitVec.toNat_ofNat, BitVec.toNat_ofNat]
  omega

theorem step_write_msgAddress {s : State} {i : Nat} {w : Word} {rest : List Transaction}
    (hp : s.pending = .write (msgAddress i) w :: rest) (hi : i < s.cfg.msgWords) :
    step s = .next { s with pending := rest, msg := s.msg.write i w } := by
  have ha : (msgAddress i).toNat = 0x40000 + i := msgAddress_toNat (hi.trans_le s.cfg.msgWords_max)
  have hl : locate s.cfg (msgAddress i) = some (.msg i) := locate_eq_some_iff.2 ⟨ha, hi⟩
  exact (step_write hp).trans (hostWrite_msg hl)

/-- By induction on the Words: the first is written, and no later one is written over it. -/
theorem runSteps_loadMessage (ws : List Word) {s : State} {i : Nat} {rest : List Transaction} (hwf : s.msg.wf)
    (hin : i + ws.length ≤ s.cfg.msgWords) (hp : s.pending = loadMessage i ws ++ rest) :
    ∃ m : Memory, runSteps ws.length s = .next { s with pending := rest, msg := m } ∧
      (∀ (j : Nat) (w : Word), ws[j]? = some w → m.read (i + j) = w) ∧
      ∀ j, j < i ∨ i + ws.length ≤ j → m.read j = s.msg.read j := by
  induction ws generalizing s i with
  | nil =>
    refine ⟨s.msg, ?_, nofun, fun _ _ => rfl⟩
    rw [← show s.pending = rest from hp]
    exact runSteps_zero s
  | cons w ws ih =>
    rw [List.length_cons] at hin
    have hstep := step_write_msgAddress (rest := loadMessage (i + 1) ws ++ rest) hp (by omega)
    obtain ⟨m, hrun, hloaded, hother⟩ := ih (s := { s with pending := _, msg := s.msg.write i w }) (i := i + 1)
      (Memory.wf_write hwf i w) (by simp only; omega) rfl
    refine ⟨m, (runSteps_succ _ hstep).trans hrun, fun j w' hj => ?loaded, fun j hj => ?other⟩
    case loaded =>
      cases j with
      | zero =>
        cases hj
        rw [Nat.add_zero, hother i (by omega), Memory.read_write hwf, if_pos rfl]
      | succ j => rw [← hloaded j w' hj, Nat.add_right_comm, Nat.add_assoc]
    case other =>
      rw [List.length_cons] at hj
      rw [hother j (by omega), Memory.read_write hwf, if_neg (by omega)]

/-- Settles O59: each line is a host write of one register or Word. -/
theorem loadingPseudoInstructions : Obligations.LoadingPseudoInstructions := by
  refine ⟨fun s k rest => runSteps_setKey, fun s n rest hp hn => ?length, fun s i ws rest hwf hin hp => ?message⟩
  case length => exact (runSteps_succ 0 (step_write_len hp hn)).trans (runSteps_zero _)
  case message =>
    obtain ⟨m, hrun, hloaded, hother⟩ := runSteps_loadMessage ws hwf hin hp
    exact ⟨_, hrun, rfl, hloaded, hother⟩

end Sys2Proof.Machine
